-- ==== Sys2Proof/Word.lean ====
section
/-! DEFINITION. The word types of QCE: a register of the window is 32 bits (00_scope.md R4 `REG_W`, R5), a memory cell is
8 bits (20_memory.md R40). -/

namespace Sys2Proof

/-- The contents of one register of the window, and a command word (00_scope.md R5, 30_encoding.md R70). -/
abbrev Word := BitVec 32

/-- The contents of one byte address of the data space (20_memory.md R40). -/
abbrev Byte := BitVec 8

end Sys2Proof
end

