-- ==== Sys2Proof/Config.lean ====
section
/-! DEFINITION. What an implementation or the platform fixes (00_scope.md R4) and the values the spec leaves unspecified.
The numeric ranges `M_MIN`, `M_MAX`, `S_MIN`, `S_MAX` stand with the primitive in Machine/Qmul.lean. -/

namespace Sys2Proof.Config

/-- `SCRATCH_BYTES` (00_scope.md R4): this hardware asks for no scratch memory (60_exceptions.md R164). -/
def scratchBytes : Nat := 0

/-- `SCRATCH_MAX` (00_scope.md R4): the platform's ceiling on scratch memory, OPEN in the spec, so it has no body here. -/
opaque scratchMax : Nat

/-- `unspecified_32` (00_scope.md R6): the value the primitive delivers outside `Dom` (40_qmul.md R94; 93 U1, U2).
Nothing is known of it.  DESIGN CHOICE (log entry 5), safe: it is indexed by the counter `State.fresh`, so two draws are
two values that nothing relates. -/
opaque freeValue : Nat → BitVec 32

/-- An output byte whose contents the spec calls undefined: `NoAlias`, `SourcesStable` or `OutputsDisjoint` is broken
(70_reset_and_hazards.md R193, R194, R195).  Nothing is known of it.  DESIGN CHOICE (log entry 6), safe. -/
opaque freeByte : Nat → BitVec 8

end Sys2Proof.Config
end

