-- ==== Sys2Proof/Syntax.lean ====
section
/-! DEFINITION. The commands of QCE, one constructor per row of spec/opcode_table.json (30_encoding.md R73, R82). -/

namespace Sys2Proof

/-- A decoded command.  `hasBias` is `HAS_BIAS` (30_encoding.md R74), `usgn` is `USGN` (R75); a QMUL word has neither
(R76: both bits must be 0). -/
inductive Instr where
  /-- `CONV [,BIAS] [,U8]`: quantized 2-D dense convolution (41_conv.md R122). -/
  | conv (hasBias usgn : Bool)
  /-- `DWCONV [,BIAS] [,U8]`: quantized depthwise 2-D convolution (42_dwconv.md R146). -/
  | dwconv (hasBias usgn : Bool)
  /-- `QMUL`: the quantized multiplier primitive on register operands (40_qmul.md R96). -/
  | qmul
  deriving DecidableEq, Repr

end Sys2Proof
end

