-- ==== Sys2Proof/WellFormed.lean ====
section
/-! DEFINITION. Well-formedness.  A command has no operand that could be out of range (30_encoding.md R79: no immediate,
no register number), so every term of `Instr` is well-formed; the checks the spec does make are made on the command word,
`Legal` of 30_encoding.md R76, and stand here written from that rule alone, apart from the decoder. -/

namespace Sys2Proof

/-- 30_encoding.md R76, first clause: `w[31:6] = 0`. -/
def reservedBitsZero (w : Word) : Bool := w.toNat / 2 ^ 6 == 0

/-- 30_encoding.md R76, second clause: the operation is CONV, DWCONV, or QMUL without options (`w[5:4] = 0`). -/
def operationDefined (w : Word) : Bool :=
  w.toNat % 16 == 1 || w.toNat % 16 == 2 || (w.toNat % 16 == 3 && w.toNat / 16 % 4 == 0)

/-- `Legal(w)` of 30_encoding.md R76. -/
def legalWord (w : Word) : Bool := reservedBitsZero w && operationDefined w

/-- An instruction is well-formed when its fields fit the format `CW` (30_encoding.md R70): the two options are single
bits and QMUL has none, so each constructor is well-formed as it stands. -/
def Instr.wellFormed (i : Instr) : Bool :=
  match i with
  | .conv _ _ => true
  | .dwconv _ _ => true
  | .qmul => true

end Sys2Proof
end

