-- ==== Sys2Proof/Decode.lean ====
section
/-! DEFINITION. Decoding of a command word, total and rejecting by name, and the encoder (30_encoding.md R70 to R76). -/

namespace Sys2Proof

/-- Why a command word is not one of the nine legal words (30_encoding.md R76, 60_exceptions.md R165).  The machine
reports all of them with the one code `E_CMD`; the names are the model's, for the reader (log entry 19). -/
inductive IllegalWord where
  /-- One of bits 31:6 (`ZERO`) is set. -/
  | reservedBits
  /-- `OPC` is 0 or 4 to 15 (R73). -/
  | reservedOpcode (opc : BitVec 4)
  /-- `OPC` is QMUL and `HAS_BIAS` or `USGN` is set (R74, R75). -/
  | qmulOption
  deriving DecidableEq, Repr

/-- The result of decoding a word: a command, or the reason it is illegal. -/
inductive Decoded where
  | instr (i : Instr)
  | illegal (why : IllegalWord)
  deriving DecidableEq, Repr

/-- `OPC`, bits 3:0 (R70). -/
def fieldOpc (w : Word) : BitVec 4 := w.extractLsb' 0 4

/-- `HAS_BIAS`, bit 4 (R70). -/
def fieldHasBias (w : Word) : Bool := w.getLsbD 4

/-- `USGN`, bit 5 (R70). -/
def fieldUsgn (w : Word) : Bool := w.getLsbD 5

/-- `ZERO`, bits 31:6 (R70). -/
def fieldZero (w : Word) : BitVec 26 := w.extractLsb' 6 26

/-- Decoding, step 1 of 30_encoding.md R72: every 32-bit word is a command or illegal by name (R76). -/
def decode (w : Word) : Decoded :=
  if fieldZero w ≠ 0 then .illegal .reservedBits
  else if fieldOpc w = 1 then .instr (.conv (fieldHasBias w) (fieldUsgn w))
  else if fieldOpc w = 2 then .instr (.dwconv (fieldHasBias w) (fieldUsgn w))
  else if fieldOpc w = 3 then
    if fieldHasBias w || fieldUsgn w then .illegal .qmulOption else .instr .qmul
  else .illegal (.reservedOpcode (fieldOpc w))

/-- Assembles a word of format `CW` (R70) from its fields. -/
def assemble (opc : BitVec 4) (hasBias usgn : Bool) : Word :=
  (0 : BitVec 26) ++ BitVec.ofBool usgn ++ BitVec.ofBool hasBias ++ opc

/-- The encoder (R73, R82). -/
def encode (i : Instr) : Word :=
  match i with
  | .conv hasBias usgn => assemble 1 hasBias usgn
  | .dwconv hasBias usgn => assemble 2 hasBias usgn
  | .qmul => assemble 3 false false

/-- The decoder on an instruction given by the bits of the opcode table: a command is one 32-bit word (R78), bit 0 its
least significant bit; bits above `nbits` are 0. -/
def decodeTableWord (nbits w : Nat) : Option Instr :=
  match decode (BitVec.ofNat 32 (w % 2 ^ nbits)) with
  | .instr i => if w % 2 ^ nbits < 2 ^ 32 then some i else none
  | .illegal _ => none

end Sys2Proof
end

