-- ==== Sys2Proof/Machine/State.lean ====
section
/-! DEFINITION. The state of QCE as plain data: the register window (10_state.md R12), the data memory (20_memory.md R40),
the platform parameters `QCE_BASE` and `MAPPED` (00_scope.md R4), and the model's own bookkeeping of the agents' turns. -/

namespace Sys2Proof.Machine

/-- Four dimension registers `*_DIM0` (outermost) to `*_DIM3` (innermost) (10_state.md R19). -/
structure Shape where
  d0 : Word
  d1 : Word
  d2 : Word
  d3 : Word
  deriving DecidableEq, Repr

/-- The register window (10_state.md R12), one field per register in the order of its offsets.  Reserved offsets have no
storage (R13). -/
structure Window where
  /-- 0x00 `CMD` (R15). -/
  cmd : Word
  /-- 0x04 `STATUS` (R16). -/
  status : Word
  /-- 0x08 `SHAPE_RANK` (R17). -/
  shapeRank : Word
  /-- 0x10 `STRIDE_H` (R18). -/
  strideH : Word
  /-- 0x14 `STRIDE_W`. -/
  strideW : Word
  /-- 0x18 `DIL_H`. -/
  dilH : Word
  /-- 0x1C `DIL_W`. -/
  dilW : Word
  /-- 0x20 `PAD_H`. -/
  padH : Word
  /-- 0x24 `PAD_W`. -/
  padW : Word
  /-- 0x28 `IN_OFFSET`. -/
  inOffset : Word
  /-- 0x2C `OUT_OFFSET`. -/
  outOffset : Word
  /-- 0x30 `ACT_MIN`. -/
  actMin : Word
  /-- 0x34 `ACT_MAX`. -/
  actMax : Word
  /-- 0x38 `DEPTH_MULT`. -/
  depthMult : Word
  /-- 0x40 to 0x4C `IN_DIM0` to `IN_DIM3` (R19). -/
  inDim : Shape
  /-- 0x50 to 0x5C `FILT_DIM0` to `FILT_DIM3`. -/
  filtDim : Shape
  /-- 0x60 to 0x6C `BIAS_DIM0` to `BIAS_DIM3`. -/
  biasDim : Shape
  /-- 0x70 to 0x7C `OUT_DIM0` to `OUT_DIM3`. -/
  outDim : Shape
  /-- 0x80 `IN_BASE` (R20). -/
  inBase : Word
  /-- 0x84 `FILT_BASE`. -/
  filtBase : Word
  /-- 0x88 `BIAS_BASE`. -/
  biasBase : Word
  /-- 0x8C `OUT_BASE`. -/
  outBase : Word
  /-- 0x90 `MULT_BASE`. -/
  multBase : Word
  /-- 0x94 `SHIFT_BASE`. -/
  shiftBase : Word
  /-- 0xA0 `QM_ACC` (R21). -/
  qmAcc : Word
  /-- 0xA4 `QM_MULT`. -/
  qmMult : Word
  /-- 0xA8 `QM_SHIFT`. -/
  qmShift : Word
  /-- 0xAC `QM_RESULT`. -/
  qmResult : Word
  deriving DecidableEq, Repr

/-- The name of a register of the window (10_state.md R12). -/
inductive Reg where
  | cmd | status | shapeRank
  | strideH | strideW | dilH | dilW | padH | padW | inOffset | outOffset | actMin | actMax | depthMult
  | inDim0 | inDim1 | inDim2 | inDim3
  | filtDim0 | filtDim1 | filtDim2 | filtDim3
  | biasDim0 | biasDim1 | biasDim2 | biasDim3
  | outDim0 | outDim1 | outDim2 | outDim3
  | inBase | filtBase | biasBase | outBase | multBase | shiftBase
  | qmAcc | qmMult | qmShift | qmResult
  deriving DecidableEq, Repr

/-- The data memory: (address, byte) pairs, addresses strictly rising, no byte equal to what an unlisted address reads
as (`Memory.wf` in Machine/Ops.lean). -/
abbrev Memory := List Host.Cell

/-- A range of `size` byte addresses from `base` up (20_memory.md R46). -/
structure Region where
  base : Nat
  size : Nat
  deriving DecidableEq, Repr

/-- A rejection (60_exceptions.md R161). -/
inductive ErrorCode where
  /-- Code 1: a shape check of CONV or DWCONV fails (R162). -/
  | eShape
  /-- Code 2: a scratch need above the platform's ceiling; never raised by this hardware (R164). -/
  | eResource
  /-- Code 3: the command word is not legal (R165). -/
  | eCmd
  deriving DecidableEq, Repr

/-- One turn of one agent (00_scope.md R8).  Which turn comes next is plain data, `State.agenda` (log entry 3).  DESIGN
CHOICE, safe (log entry 22): the spec gives no width for a host's access to the data memory, and one turn accesses one byte;
a wider access is as many turns. -/
inductive Turn where
  /-- The engine takes its transition: steps 1 to 4 of 30_encoding.md R72 when `BUSY` = 1, nothing when it is idle. -/
  | engine
  /-- The running engine performs, ahead of its completion, its write of output element `k` (20_memory.md R54, R61), or
  of `QM_RESULT` for a QMUL (R56). -/
  | engineStore (k : Nat)
  /-- The host writes `v` to the window with an access of `width` bits at the address `addr` of its own address map
  (10_state.md R13, R14; 20_memory.md R41). -/
  | hostWrite (width addr : Nat) (v : Word)
  /-- The host reads the window with an access of `width` bits at `addr` (R13, R41). -/
  | hostRead (width addr : Nat)
  /-- The host, another engine or a DMA writes one byte of the data space (20_memory.md R40; log entry 22). -/
  | memWrite (addr : Word) (b : Byte)
  /-- The host reads one byte of the data space (R40; log entry 22). -/
  | memRead (addr : Word)
  /-- The platform resets the engine (70_reset_and_hazards.md R190). -/
  | reset
  deriving DecidableEq, Repr

/-- The state of the machine. -/
structure State where
  /-- The register window (10_state.md R12). -/
  win : Window
  /-- The data memory (20_memory.md R40). -/
  mem : Memory
  /-- `MAPPED` (00_scope.md R4, 20_memory.md R51): the addresses backed by plain memory, a union of ranges.  A parameter
  of the platform: no step changes it (log entry 2). -/
  mapped : List Region
  /-- `QCE_BASE` (00_scope.md R4, 20_memory.md R41): the address of the register window in the host's address map.  A
  parameter of the platform: no step changes it (log entry 18). -/
  qceBase : Nat
  /-- The turns still to be taken, the next one first; when none is left the engine moves (log entry 3). -/
  agenda : List Turn
  /-- What the last host read answered (log entry 4). -/
  readData : Word
  /-- The data addresses someone else than the engine has written since the launch (log entry 7). -/
  foreign : List Nat
  /-- The index of the next free value (log entry 5). -/
  fresh : Nat
  deriving DecidableEq, Repr

/-- Why the machine stops. -/
inductive Fault where
  /-- Raised by a host access to a data address outside `MAPPED` (turns `memWrite`, `memRead`): the spec says no memory
  is there (20_memory.md R51) and leaves what happens to the platform (93 U6).  Safe: the model stops (log entry 12). -/
  | unmappedByte (addr : Nat)
  deriving DecidableEq, Repr

/-- Why a step has no meaning. -/
inductive Refusal where
  /-- Raised by an arm of `exec` whose instruction has no meaning yet; no arm does.  Safe. -/
  | notModelled (mnemonic : String)
  /-- Raised by CONV and DWCONV that have passed validation while `BuffersMapped` does not hold: 20_memory.md R52 and
  93 U6 give such a launch no effect, and it need not even end (70_reset_and_hazards.md R201).  Safe (log entry 8). -/
  | buffersNotMapped
  /-- Raised by a host access at `addr` that is not an aligned 32-bit access inside the window: 10_state.md R13 and 93 U9
  give it no effect.  Safe (log entry 11). -/
  | windowAccess (width addr : Nat)
  deriving DecidableEq, Repr

/-- A dimension descriptor after reset (10_state.md R26). -/
def Shape.reset : Shape := { d0 := 0, d1 := 0, d2 := 0, d3 := 0 }

/-- The register window after reset: every register 0, `SHAPE_RANK` 0x04040404 (10_state.md R26). -/
def Window.reset : Window where
  cmd := 0
  status := 0
  shapeRank := 0x04040404
  strideH := 0
  strideW := 0
  dilH := 0
  dilW := 0
  padH := 0
  padW := 0
  inOffset := 0
  outOffset := 0
  actMin := 0
  actMax := 0
  depthMult := 0
  inDim := Shape.reset
  filtDim := Shape.reset
  biasDim := Shape.reset
  outDim := Shape.reset
  inBase := 0
  filtBase := 0
  biasBase := 0
  outBase := 0
  multBase := 0
  shiftBase := 0
  qmAcc := 0
  qmMult := 0
  qmShift := 0
  qmResult := 0

/-- The machine right after reset (10_state.md R26, 70_reset_and_hazards.md R190).  The window is the spec's.  DESIGN
CHOICE, unsafe: the memory lists nothing (log entry 1), the whole data space is mapped (log entry 2), the window stands at
address 0 of the host (log entry 18), and the model's own fields are empty or 0 (log entries 3, 4, 5, 7). -/
def State.reset : State where
  win := Window.reset
  mem := []
  mapped := [{ base := 0, size := 2 ^ 32 }]
  qceBase := 0
  agenda := []
  readData := 0
  foreign := []
  fresh := 0

end Sys2Proof.Machine
end

