-- ==== Sys2Proof/Machine/Flags.lean ====
section
/-! DEFINITION. The status word: the only flags of QCE are `BUSY`, `DONE`, `ERROR` and `ECODE` in `STATUS`
(10_state.md R16, R24). -/

namespace Sys2Proof.Machine

/-- `STATUS` while a command runs (30_encoding.md R71). -/
def statusBusy : Word := 0x00000001

/-- `STATUS` after a command that completed normally (30_encoding.md R72 step 4). -/
def statusDone : Word := 0x00000002

/-- The code of a rejection (60_exceptions.md R161). -/
def ErrorCode.code (e : ErrorCode) : Word :=
  match e with
  | .eShape => 1
  | .eResource => 2
  | .eCmd => 3

/-- `STATUS` after a rejection: `0x00000004 + 0x100 · code(E)` (60_exceptions.md R163). -/
def statusError (e : ErrorCode) : Word := 0x00000004 + 0x100 * e.code

/-- `STATUS` bit 0 (10_state.md R16). -/
def statusBusyBit (w : Word) : Bool := w.getLsbD 0

/-- `STATUS` bit 1 (R16). -/
def statusDoneBit (w : Word) : Bool := w.getLsbD 1

/-- `STATUS` bit 2 (R16). -/
def statusErrorBit (w : Word) : Bool := w.getLsbD 2

/-- `STATUS` bits 11:8 (R16). -/
def statusEcode (w : Word) : BitVec 4 := w.extractLsb' 8 4

/-- The values `STATUS` ever holds on this hardware (10_state.md R16, 60_exceptions.md R164). -/
def statusValues : List Word := [0x000, 0x001, 0x002, 0x104, 0x304]

end Sys2Proof.Machine
end

