-- ==== Sys2Proof/Machine/Ops.lean ====
section
/-! DEFINITION. The named operations on the window and the data memory, and the two moves of control: the launch of a
command and its rejection (30_encoding.md R71, 60_exceptions.md R163). -/

namespace Sys2Proof.Machine

/-! ### The register window -/

/-- The registers of the window in the order of their offsets (10_state.md R12). -/
def Reg.all : List Reg :=
  [.cmd, .status, .shapeRank, .strideH, .strideW, .dilH, .dilW, .padH,
   .padW, .inOffset, .outOffset, .actMin, .actMax, .depthMult, .inDim0, .inDim1,
   .inDim2, .inDim3, .filtDim0, .filtDim1, .filtDim2, .filtDim3, .biasDim0, .biasDim1,
   .biasDim2, .biasDim3, .outDim0, .outDim1, .outDim2, .outDim3, .inBase, .filtBase,
   .biasBase, .outBase, .multBase, .shiftBase, .qmAcc, .qmMult, .qmShift, .qmResult]

/-- The byte offset of a register from `QCE_BASE` (10_state.md R12). -/
def Reg.offset (r : Reg) : Nat :=
  match r with
  | .cmd => 0x00
  | .status => 0x04
  | .shapeRank => 0x08
  | .strideH => 0x10
  | .strideW => 0x14
  | .dilH => 0x18
  | .dilW => 0x1C
  | .padH => 0x20
  | .padW => 0x24
  | .inOffset => 0x28
  | .outOffset => 0x2C
  | .actMin => 0x30
  | .actMax => 0x34
  | .depthMult => 0x38
  | .inDim0 => 0x40
  | .inDim1 => 0x44
  | .inDim2 => 0x48
  | .inDim3 => 0x4C
  | .filtDim0 => 0x50
  | .filtDim1 => 0x54
  | .filtDim2 => 0x58
  | .filtDim3 => 0x5C
  | .biasDim0 => 0x60
  | .biasDim1 => 0x64
  | .biasDim2 => 0x68
  | .biasDim3 => 0x6C
  | .outDim0 => 0x70
  | .outDim1 => 0x74
  | .outDim2 => 0x78
  | .outDim3 => 0x7C
  | .inBase => 0x80
  | .filtBase => 0x84
  | .biasBase => 0x88
  | .outBase => 0x8C
  | .multBase => 0x90
  | .shiftBase => 0x94
  | .qmAcc => 0xA0
  | .qmMult => 0xA4
  | .qmShift => 0xA8
  | .qmResult => 0xAC

/-- The register at an offset; `none` at a reserved offset (10_state.md R13). -/
def Reg.ofOffset (off : Nat) : Option Reg := Reg.all.find? fun r => r.offset == off

/-- The registers the host can only read (10_state.md R12): `STATUS` and `QM_RESULT`. -/
def Reg.readOnly (r : Reg) : Bool := r == .status || r == .qmResult

/-- `Reg[NAME]` (00_scope.md R6). -/
def Window.get (w : Window) (r : Reg) : Word :=
  match r with
  | .cmd => w.cmd
  | .status => w.status
  | .shapeRank => w.shapeRank
  | .strideH => w.strideH
  | .strideW => w.strideW
  | .dilH => w.dilH
  | .dilW => w.dilW
  | .padH => w.padH
  | .padW => w.padW
  | .inOffset => w.inOffset
  | .outOffset => w.outOffset
  | .actMin => w.actMin
  | .actMax => w.actMax
  | .depthMult => w.depthMult
  | .inDim0 => w.inDim.d0
  | .inDim1 => w.inDim.d1
  | .inDim2 => w.inDim.d2
  | .inDim3 => w.inDim.d3
  | .filtDim0 => w.filtDim.d0
  | .filtDim1 => w.filtDim.d1
  | .filtDim2 => w.filtDim.d2
  | .filtDim3 => w.filtDim.d3
  | .biasDim0 => w.biasDim.d0
  | .biasDim1 => w.biasDim.d1
  | .biasDim2 => w.biasDim.d2
  | .biasDim3 => w.biasDim.d3
  | .outDim0 => w.outDim.d0
  | .outDim1 => w.outDim.d1
  | .outDim2 => w.outDim.d2
  | .outDim3 => w.outDim.d3
  | .inBase => w.inBase
  | .filtBase => w.filtBase
  | .biasBase => w.biasBase
  | .outBase => w.outBase
  | .multBase => w.multBase
  | .shiftBase => w.shiftBase
  | .qmAcc => w.qmAcc
  | .qmMult => w.qmMult
  | .qmShift => w.qmShift
  | .qmResult => w.qmResult

/-- `Reg[NAME] <- v` (00_scope.md R6). -/
def Window.set (w : Window) (r : Reg) (v : Word) : Window :=
  match r with
  | .cmd => { w with cmd := v }
  | .status => { w with status := v }
  | .shapeRank => { w with shapeRank := v }
  | .strideH => { w with strideH := v }
  | .strideW => { w with strideW := v }
  | .dilH => { w with dilH := v }
  | .dilW => { w with dilW := v }
  | .padH => { w with padH := v }
  | .padW => { w with padW := v }
  | .inOffset => { w with inOffset := v }
  | .outOffset => { w with outOffset := v }
  | .actMin => { w with actMin := v }
  | .actMax => { w with actMax := v }
  | .depthMult => { w with depthMult := v }
  | .inDim0 => { w with inDim := { w.inDim with d0 := v } }
  | .inDim1 => { w with inDim := { w.inDim with d1 := v } }
  | .inDim2 => { w with inDim := { w.inDim with d2 := v } }
  | .inDim3 => { w with inDim := { w.inDim with d3 := v } }
  | .filtDim0 => { w with filtDim := { w.filtDim with d0 := v } }
  | .filtDim1 => { w with filtDim := { w.filtDim with d1 := v } }
  | .filtDim2 => { w with filtDim := { w.filtDim with d2 := v } }
  | .filtDim3 => { w with filtDim := { w.filtDim with d3 := v } }
  | .biasDim0 => { w with biasDim := { w.biasDim with d0 := v } }
  | .biasDim1 => { w with biasDim := { w.biasDim with d1 := v } }
  | .biasDim2 => { w with biasDim := { w.biasDim with d2 := v } }
  | .biasDim3 => { w with biasDim := { w.biasDim with d3 := v } }
  | .outDim0 => { w with outDim := { w.outDim with d0 := v } }
  | .outDim1 => { w with outDim := { w.outDim with d1 := v } }
  | .outDim2 => { w with outDim := { w.outDim with d2 := v } }
  | .outDim3 => { w with outDim := { w.outDim with d3 := v } }
  | .inBase => { w with inBase := v }
  | .filtBase => { w with filtBase := v }
  | .biasBase => { w with biasBase := v }
  | .outBase => { w with outBase := v }
  | .multBase => { w with multBase := v }
  | .shiftBase => { w with shiftBase := v }
  | .qmAcc => { w with qmAcc := v }
  | .qmMult => { w with qmMult := v }
  | .qmShift => { w with qmShift := v }
  | .qmResult => { w with qmResult := v }

/-- The machine's read of a register. -/
def State.get (s : State) (r : Reg) : Word := s.win.get r

/-- The machine's write of a register. -/
def State.set (s : State) (r : Reg) (v : Word) : State := { s with win := s.win.set r v }

/-- `STATUS.BUSY` (10_state.md R16). -/
def State.busy (s : State) : Bool := statusBusyBit (s.get .status)

/-! ### The data memory -/

/-- What an address that nothing has written reads as.  The spec gives no contents at power-up (10_state.md R26).
DESIGN CHOICE, unsafe (log entry 1). -/
def unlistedByte : Byte := 0

/-- The byte at an address. -/
def Memory.read (m : Memory) (a : Nat) : Byte :=
  match m with
  | [] => unlistedByte
  | (k, v) :: m => if k = a then v else Memory.read m a

/-- Memory without an entry for `a`. -/
def Memory.erase (m : Memory) (a : Nat) : Memory :=
  match m with
  | [] => []
  | (k, v) :: m => if k = a then Memory.erase m a else (k, v) :: Memory.erase m a

/-- Puts an entry before the first one whose address is not below it. -/
def Memory.insert (m : Memory) (a : Nat) (b : Byte) : Memory :=
  match m with
  | [] => [(a, b)]
  | (k, v) :: m => if k < a then (k, v) :: Memory.insert m a b else (a, b) :: (k, v) :: m

/-- Stores a byte and keeps the canonical form. -/
def Memory.write (m : Memory) (a : Nat) (b : Byte) : Memory :=
  if b = unlistedByte then m.erase a else (m.erase a).insert a b

/-- The entries from address `lo` up are in canonical form: addresses strictly rising and inside the data space
(20_memory.md R40), no byte equal to what an unlisted address reads as. -/
def Memory.wfFrom (lo : Nat) (m : Memory) : Bool :=
  match m with
  | [] => true
  | (k, v) :: m => decide (lo ≤ k) && decide (k < 2 ^ 32) && decide (v ≠ unlistedByte) && Memory.wfFrom (k + 1) m

/-- The canonical form of the data memory. -/
def Memory.wf (m : Memory) : Bool := m.wfFrom 0

/-- `MemRead(addr, n)` (00_scope.md R6): the number formed little-endian from `n` bytes (20_memory.md R43). -/
def Memory.readLE (m : Memory) (a n : Nat) : Nat :=
  match n with
  | 0 => 0
  | n + 1 => (m.read a).toNat + 256 * m.readLE (a + 1) n

/-- Stores `f 0` to `f (n - 1)` at `base` to `base + n - 1`. -/
def Memory.storeRange (m : Memory) (base n : Nat) (f : Nat → Byte) : Memory :=
  match n with
  | 0 => m
  | n + 1 => (m.storeRange base n f).write (base + n) (f n)

/-! ### Regions of the data space -/

/-- The address lies in the range. -/
def Region.contains (r : Region) (a : Nat) : Bool := decide (r.base ≤ a) && decide (a < r.base + r.size)

/-- The two ranges share no byte. -/
def Region.disjoint (r q : Region) : Bool :=
  decide (r.size = 0) || decide (q.size = 0) || decide (r.base + r.size ≤ q.base) || decide (q.base + q.size ≤ r.base)

/-- What of `r` lies outside `m`: the part below `m` and the part above it. -/
def Region.minus (r m : Region) : List Region :=
  [{ base := r.base, size := min r.size (m.base - r.base) },
   { base := max r.base (m.base + m.size), size := r.base + r.size - max r.base (m.base + m.size) }].filter
    fun q => q.size ≠ 0

/-- What of the ranges `rs` no range of the list covers. -/
def uncovered (rs : List Region) (ms : List Region) : List Region :=
  match ms with
  | [] => rs
  | m :: ms => uncovered (rs.flatMap fun r => r.minus m) ms

/-- The range lies wholly inside `MAPPED` and does not wrap past the top of the space (20_memory.md R52); a range of
size 0 does whatever its base (93 U6). -/
def State.regionMapped (s : State) (r : Region) : Bool :=
  decide (r.size = 0) ||
    (decide (r.base + r.size ≤ 2 ^ 32) && (uncovered [r] s.mapped).all fun q => decide (q.size = 0))

/-- The address is in `MAPPED`. -/
def State.byteMapped (s : State) (a : Nat) : Bool := s.mapped.any fun r => r.contains a

/-! ### Launch, completion, rejection -/

/-- The launch of the command word `w` (30_encoding.md R71): `CMD` latched, `STATUS` = 1, in one step. -/
def State.launch (s : State) (w : Word) : State :=
  { (s.set .cmd w).set .status statusBusy with foreign := [] }

/-- Normal completion (30_encoding.md R72 step 4): nothing of the hidden state survives (10_state.md R23). -/
def State.complete (s : State) : State :=
  { s.set .status statusDone with foreign := [] }

/-- `raise E`, the one way a command is rejected (60_exceptions.md R163): `STATUS` is written and nothing else.  There is
no return from it: the next launch clears it (R169). -/
def State.raise (s : State) (e : ErrorCode) : State :=
  { s.set .status (statusError e) with foreign := [] }

end Sys2Proof.Machine
end

