-- ==== Sys2Proof/Machine/Operands.lean ====
section
/-! DEFINITION. How registers and elements are read as operands: signedness and width (00_scope.md R5, R6; 10_state.md R12),
shapes and element indices (00_scope.md R7), the element reads of 20_memory.md R47, the regions of R46 and the premises over
them (70_reset_and_hazards.md R193 to R195, 20_memory.md R52). -/

namespace Sys2Proof.Machine

/-! ### Numbers -/

/-- `u32(v)` (00_scope.md R5). -/
def u32 (v : Word) : Nat := v.toNat

/-- `s32(v)` (R5). -/
def s32 (v : Word) : Int := v.toInt

/-- `wrap32(n)` (00_scope.md R6). -/
def wrap32 (n : Int) : Int := (BitVec.ofInt 32 n).toInt

/-- `low8(n)` (R6), as the byte it is. -/
def low8 (n : Int) : Byte := BitVec.ofInt 8 n

/-- `ext(v)` of 20_memory.md R47: an element widened by the sign convention (30_encoding.md R75). -/
def ext (usgn : Bool) (v : Nat) : Int := if usgn then (BitVec.ofNat 8 v).toNat else (BitVec.ofNat 8 v).toInt

/-- `sext_32(v)` (R6). -/
def sext32 (v : Nat) : Int := (BitVec.ofNat 32 v).toInt

/-! ### Shapes -/

/-- Four dimension sizes as numbers (00_scope.md R7). -/
structure Dims where
  d0 : Nat
  d1 : Nat
  d2 : Nat
  d3 : Nat
  deriving DecidableEq, Repr

/-- `FlatSize(shape)` (R7), the exact product. -/
def Dims.flatSize (d : Dims) : Nat := d.d0 * d.d1 * d.d2 * d.d3

/-- `Offset(shape, i0, i1, i2, i3)` (R7), the row-major element index. -/
def Dims.index (d : Dims) (i0 i1 i2 i3 : Nat) : Nat := ((i0 * d.d1 + i1) * d.d2 + i2) * d.d3 + i3

/-- `(N, IH, IW, IC)` (41_conv.md R110). -/
def State.inDims (s : State) : Dims :=
  { d0 := u32 (s.get .inDim0), d1 := u32 (s.get .inDim1), d2 := u32 (s.get .inDim2), d3 := u32 (s.get .inDim3) }

/-- `(FOC, FH, FW, FIC)` of CONV (R110), `(F0, FH, FW, FOC)` of DWCONV (42_dwconv.md R140). -/
def State.filtDims (s : State) : Dims :=
  { d0 := u32 (s.get .filtDim0), d1 := u32 (s.get .filtDim1), d2 := u32 (s.get .filtDim2), d3 := u32 (s.get .filtDim3) }

/-- `(B0, B1, B2, B3)` (R110). -/
def State.biasDims (s : State) : Dims :=
  { d0 := u32 (s.get .biasDim0), d1 := u32 (s.get .biasDim1), d2 := u32 (s.get .biasDim2), d3 := u32 (s.get .biasDim3) }

/-- `(NO, OH, OW, OC)` (R110). -/
def State.outDims (s : State) : Dims :=
  { d0 := u32 (s.get .outDim0), d1 := u32 (s.get .outDim1), d2 := u32 (s.get .outDim2), d3 := u32 (s.get .outDim3) }

/-- `DM` (42_dwconv.md R140). -/
def State.depthMult (s : State) : Nat := u32 (s.get .depthMult)

/-- `SHAPE_RANK.IN_RANK`, bits 7:0 (10_state.md R17). -/
def State.inRank (s : State) : Nat := ((s.get .shapeRank).extractLsb' 0 8).toNat

/-- `SHAPE_RANK.FILT_RANK`, bits 15:8 (R17). -/
def State.filtRank (s : State) : Nat := ((s.get .shapeRank).extractLsb' 8 8).toNat

/-- `SHAPE_RANK.BIAS_RANK`, bits 23:16 (R17). -/
def State.biasRank (s : State) : Nat := ((s.get .shapeRank).extractLsb' 16 8).toNat

/-- `SHAPE_RANK.OUT_RANK`, bits 31:24 (R17). -/
def State.outRank (s : State) : Nat := ((s.get .shapeRank).extractLsb' 24 8).toNat

/-! ### Elements of the buffers -/

/-- The byte address of an input element (20_memory.md R47). -/
def State.inAddr (s : State) (b y x c : Nat) : Nat := u32 (s.get .inBase) + s.inDims.index b y x c

/-- `InElem(b, y, x, c)` (R47). -/
def State.inElem (s : State) (usgn : Bool) (b y x c : Nat) : Int := ext usgn (s.mem.readLE (s.inAddr b y x c) 1)

/-- The shape of the CONV filter once validated, `(OC, FH, FW, IC)` (R47; 41_conv.md R110). -/
def State.convFiltDims (s : State) : Dims :=
  { d0 := s.outDims.d3, d1 := s.filtDims.d1, d2 := s.filtDims.d2, d3 := s.inDims.d3 }

/-- `FiltElemConv(oc, fy, fx, ic)` (R47). -/
def State.filtElemConv (s : State) (usgn : Bool) (oc fy fx ic : Nat) : Int :=
  ext usgn (s.mem.readLE (u32 (s.get .filtBase) + s.convFiltDims.index oc fy fx ic) 1)

/-- `FiltElemDw(fy, fx, oc)` (R47; 42_dwconv.md R143). -/
def State.filtElemDw (s : State) (usgn : Bool) (fy fx oc : Nat) : Int :=
  ext usgn (s.mem.readLE (u32 (s.get .filtBase) + ((fy * s.filtDims.d2 + fx) * s.outDims.d3 + oc)) 1)

/-- `BiasElem(oc)` (R47). -/
def State.biasElem (s : State) (oc : Nat) : Int := sext32 (s.mem.readLE (u32 (s.get .biasBase) + 4 * oc) 4)

/-- `MultElem(oc)` (R47). -/
def State.multElem (s : State) (oc : Nat) : Int := sext32 (s.mem.readLE (u32 (s.get .multBase) + 4 * oc) 4)

/-- `ShiftElem(oc)` (R47). -/
def State.shiftElem (s : State) (oc : Nat) : Int := sext32 (s.mem.readLE (u32 (s.get .shiftBase) + 4 * oc) 4)

/-- The address `OutStore` stores output element `k` to (20_memory.md R48), `k` its row-major index. -/
def State.outAddr (s : State) (k : Nat) : Nat := u32 (s.get .outBase) + k

/-! ### Regions and premises -/

/-- Region `IN` (20_memory.md R46). -/
def State.inRegion (s : State) : Region := { base := u32 (s.get .inBase), size := s.inDims.flatSize }

/-- Region `FILT`; its size is the command's (R46). -/
def State.filtRegion (s : State) (filtSize : Nat) : Region := { base := u32 (s.get .filtBase), size := filtSize }

/-- Region `BIAS` (R46). -/
def State.biasRegion (s : State) : Region := { base := u32 (s.get .biasBase), size := 4 * s.outDims.d3 }

/-- Region `MULT` (R46). -/
def State.multRegion (s : State) : Region := { base := u32 (s.get .multBase), size := 4 * s.outDims.d3 }

/-- Region `SHIFT` (R46). -/
def State.shiftRegion (s : State) : Region := { base := u32 (s.get .shiftBase), size := 4 * s.outDims.d3 }

/-- Region `OUT` (R46). -/
def State.outRegion (s : State) : Region := { base := u32 (s.get .outBase), size := s.outDims.flatSize }

/-- The regions a command reads; `BIAS` is present when `HAS_BIAS` = 1 (R46, R49). -/
def State.sourceRegions (s : State) (hasBias : Bool) (filtSize : Nat) : List Region :=
  [s.inRegion, s.filtRegion filtSize, s.multRegion, s.shiftRegion] ++ if hasBias then [s.biasRegion] else []

/-- The size of region `FILT` of CONV, `OC·FH·FW·IC` (R46). -/
def State.convFiltSize (s : State) : Nat := s.convFiltDims.flatSize

/-- The size of region `FILT` of DWCONV, `FH·FW·OC` (R46; 42_dwconv.md R143). -/
def State.dwFiltSize (s : State) : Nat := s.filtDims.d1 * s.filtDims.d2 * s.outDims.d3

/-- `BuffersMapped` (20_memory.md R52). -/
def State.buffersMapped (s : State) (hasBias : Bool) (filtSize : Nat) : Bool :=
  (s.outRegion :: s.sourceRegions hasBias filtSize).all fun r => s.regionMapped r

/-- `NoAlias` (70_reset_and_hazards.md R193). -/
def State.noAlias (s : State) (hasBias : Bool) (filtSize : Nat) : Bool :=
  (s.sourceRegions hasBias filtSize).all fun r => r.disjoint s.outRegion

/-- `SourcesStable` (R194): nobody but the engine has written a byte of a source region since the launch. -/
def State.sourcesStable (s : State) (hasBias : Bool) (filtSize : Nat) : Bool :=
  (s.sourceRegions hasBias filtSize).all fun r => s.foreign.all fun a => !r.contains a

/-- `OutputsDisjoint` (R195) for one output byte: nobody but the engine has written it since the launch. -/
def State.outUndisturbed (s : State) (k : Nat) : Bool := !s.foreign.contains (s.outAddr k)

end Sys2Proof.Machine
end

