-- ==== Sys2Proof/Machine/Agents.lean ====
section
/-! DEFINITION. The turns of the agents around the engine: the host's accesses to the register window (10_state.md R13 to
R15), accesses of the host and of other agents to the data memory (20_memory.md R40), and reset (70_reset_and_hazards.md
R190, R191). -/

namespace Sys2Proof.Machine

/-- An aligned 32-bit access inside the 256-byte window (10_state.md R13); any other is outside the spec (93 U9). -/
def windowAccessOk (width offset : Nat) : Bool :=
  decide (width = 32) && decide (offset % 4 = 0) && decide (offset < 0x100)

/-- A host write to the register at an offset while the engine is idle (10_state.md R13, R14, R15): `CMD` launches
(30_encoding.md R71), a read-only register and a reserved offset ignore it. -/
def State.writeOffset (s : State) (offset : Nat) (v : Word) : State :=
  match Reg.ofOffset offset with
  | none => s
  | some r => if r = .cmd then s.launch v else if r.readOnly then s else s.set r v

/-- The byte offset from `QCE_BASE` of an address of the host's address map (20_memory.md R41; 10_state.md R12). -/
def State.windowOffset (s : State) (addr : Nat) : Nat := addr - s.qceBase

/-- The host's access at `addr` is an aligned 32-bit access inside the window at `QCE_BASE`. -/
def State.hostAccessOk (s : State) (width addr : Nat) : Bool :=
  decide (s.qceBase ≤ addr) && windowAccessOk width (s.windowOffset addr)

/-- A host write (10_state.md R14): discarded while `BUSY` = 1. -/
def State.hostWrite (s : State) (width addr : Nat) (v : Word) : Host.Outcome State Fault Refusal :=
  if s.hostAccessOk width addr then .next (if s.busy then s else s.writeOffset (s.windowOffset addr) v)
  else .refused (.windowAccess width addr)

/-- What a host read of an offset answers: the register, or 0 at a reserved offset (10_state.md R13). -/
def State.readOffset (s : State) (offset : Nat) : Word :=
  match Reg.ofOffset offset with
  | none => 0
  | some r => s.get r

/-- A host read (10_state.md R13, R14): allowed at any time, no side effect. -/
def State.hostRead (s : State) (width addr : Nat) : Host.Outcome State Fault Refusal :=
  if s.hostAccessOk width addr then .next { s with readData := s.readOffset (s.windowOffset addr) }
  else .refused (.windowAccess width addr)

/-- A byte written by an agent other than the engine (log entry 22).  While a command runs the address is remembered, since the result
rests on `SourcesStable` and `OutputsDisjoint` (70_reset_and_hazards.md R194, R195). -/
def State.foreignWrite (s : State) (addr : Word) (b : Byte) : Host.Outcome State Fault Refusal :=
  if s.byteMapped addr.toNat then
    .next
      { s with
        mem := s.mem.write addr.toNat b
        foreign := if s.busy then addr.toNat :: s.foreign else s.foreign }
  else .fault (.unmappedByte addr.toNat)

/-- A byte read by the host (log entry 22). -/
def State.foreignRead (s : State) (addr : Word) : Host.Outcome State Fault Refusal :=
  if s.byteMapped addr.toNat then .next { s with readData := (s.mem.read addr.toNat).setWidth 32 }
  else .fault (.unmappedByte addr.toNat)

/-- How many free values the running command can have drawn, from `s.fresh` up (log entry 5): one per output element, and at
least the one of a QMUL. -/
def State.freeDraws (s : State) : Nat := max 1 s.outDims.flatSize

/-- Reset (70_reset_and_hazards.md R190, R191): the window takes the values of 10_state.md R26, a running command is
abandoned, the data memory is not written.  The free values an abandoned command can have shown by early stores are spent: the
next command draws others (40_qmul.md R94; log entries 5, 20). -/
def State.applyReset (s : State) : State :=
  { s with win := Window.reset, foreign := [], fresh := s.fresh + s.freeDraws }

end Sys2Proof.Machine
end

