-- ==== Sys2Proof/Machine/Qmul.lean ====
section
/-! DEFINITION. The quantized multiplier primitive and the QMUL command (40_qmul.md R90 to R98). -/

namespace Sys2Proof.Machine

/-- `RoundHalfAway(n, k)` (40_qmul.md R91); `/` on `Int` with a positive divisor is the floor division. -/
def roundHalfAway (n : Int) (k : Nat) : Int :=
  if k = 0 then n
  else if 0 ≤ n then (n + 2 ^ (k - 1)) / 2 ^ k
  else -((-n + 2 ^ (k - 1)) / 2 ^ k)

/-- `QMul(acc, m, s)` (40_qmul.md R92): one rounding, of the exact product. -/
def qMul (acc m s : Int) : Int :=
  if 0 ≤ s then acc * m * 2 ^ s.toNat else roundHalfAway (acc * m) (-s).toNat

/-- `ValidPair(m, s)` (40_qmul.md R93) with `M_MIN`, `M_MAX`, `S_MIN`, `S_MAX` of 00_scope.md R4. -/
def validPair (m s : Int) : Bool := decide (0 ≤ m) && decide (m ≤ 2 ^ 31 - 1) && decide (-63 ≤ s) && decide (s ≤ 31)

/-- The integer fits 32 signed bits. -/
def fits32 (n : Int) : Bool := decide (-2 ^ 31 ≤ n) && decide (n ≤ 2 ^ 31 - 1)

/-- `(acc, m, s) ∈ Dom` (40_qmul.md R93). -/
def inDom (acc m s : Int) : Bool := fits32 acc && validPair m s && fits32 (qMul acc m s)

/-- What the primitive delivers: `QMul` inside `Dom`, `unspecified_32` outside (40_qmul.md R94).  `k` is the index of the
free value (log entry 5). -/
def deliver (acc m s : Int) (k : Nat) : Int :=
  if inDom acc m s then qMul acc m s else (Config.freeValue k).toInt

/-- The write of `QM_RESULT` by QMUL (40_qmul.md R96). -/
def State.storeQmul (s : State) : State :=
  s.set .qmResult
    (BitVec.ofInt 32 (deliver (s32 (s.get .qmAcc)) (s32 (s.get .qmMult)) (s32 (s.get .qmShift)) s.fresh))

/-- QMUL (40_qmul.md R96). -/
def execQmul (s : State) : Host.Outcome State Fault Refusal :=
  .next { s.storeQmul.complete with fresh := s.fresh + 1 }

end Sys2Proof.Machine
end

