-- ==== Sys2Proof/Machine/Tensor.lean ====
section
/-! DEFINITION. What CONV and DWCONV share: window and taps (41_conv.md R114, R115), seed (R116), rescale, offset, clamp and
narrowing (R119 to R121), and the walk over the output (R122, R123). -/

namespace Sys2Proof.Machine

/-- `f 0 + … + f (n - 1)`. -/
def sumBelow (n : Nat) (f : Nat → Int) : Int :=
  match n with
  | 0 => 0
  | n + 1 => sumBelow n f + f n

/-- `in_y(fy) = oy · SH − PH + DH · fy` (41_conv.md R114), exact. -/
def State.tapY (s : State) (oy fy : Nat) : Int :=
  (oy : Int) * u32 (s.get .strideH) - u32 (s.get .padH) + u32 (s.get .dilH) * fy

/-- `in_x(fx) = ox · SW − PW + DW · fx` (R114), exact. -/
def State.tapX (s : State) (ox fx : Nat) : Int :=
  (ox : Int) * u32 (s.get .strideW) - u32 (s.get .padW) + u32 (s.get .dilW) * fx

/-- The tap's input coordinates lie inside the input's height and width (R115). -/
def State.tapInBounds (s : State) (y x : Int) : Bool :=
  decide (0 ≤ y) && decide (y < s.inDims.d1) && decide (0 ≤ x) && decide (x < s.inDims.d2)

/-- `seed(oc)` (R116). -/
def State.seed (s : State) (hasBias : Bool) (oc : Nat) : Int := if hasBias then s.biasElem oc else 0

/-- `max(lo, min(t, hi))`, the upper bound first (R120, R125). -/
def clamp (lo hi t : Int) : Int := max lo (min t hi)

/-- The clamped value `v` of output element `k` of channel `oc` from its accumulator (R119, R120). -/
def State.clamped (s : State) (acc : Int) (oc k : Nat) : Int :=
  clamp (s32 (s.get .actMin)) (s32 (s.get .actMax))
    (deliver acc (s.multElem oc) (s.shiftElem oc) (s.fresh + k) + s32 (s.get .outOffset))

/-- The coordinates of output element `k`, inverse to the row-major index (00_scope.md R7). -/
def Dims.coords (d : Dims) (k : Nat) : Nat × Nat × Nat × Nat :=
  (k / (d.d3 * d.d2 * d.d1), k / (d.d3 * d.d2) % d.d1, k / d.d3 % d.d2, k % d.d3)

/-- The byte the rules give output element `k` (41_conv.md R117 to R121), `acc b oy ox oc` the command's accumulator. -/
def State.elemByte (s : State) (acc : Nat → Nat → Nat → Nat → Int) (k : Nat) : Byte :=
  match s.outDims.coords k with
  | (b, oy, ox, oc) => low8 (s.clamped (acc b oy ox oc) oc k)

/-- The byte the engine stores for output element `k`: the rules' byte under the premises the result rests on
(70_reset_and_hazards.md R193, R194, R195), a free byte where one is broken (log entry 6). -/
def State.storedByte (s : State) (hasBias : Bool) (filtSize : Nat) (value : Nat → Byte) (k : Nat) : Byte :=
  if s.noAlias hasBias filtSize && s.sourcesStable hasBias filtSize && s.outUndisturbed k then value k
  else Config.freeByte (s.fresh + k)

/-- `E_RESOURCE` would be raised here (60_exceptions.md R164); `SCRATCH_BYTES` is 0, so it never is (log entry 15). -/
def scratchExceeded : Bool := decide (Config.scratchMax < Config.scratchBytes)

/-- Steps 3 and 4 of 30_encoding.md R72 for a validated CONV or DWCONV: all reads as at the launch, every byte of `OUT`
written once (20_memory.md R50, R54), then completion.  Without `BuffersMapped` the spec gives the launch no effect
(R52; log entry 8). -/
def State.runTensor (s : State) (hasBias : Bool) (filtSize : Nat) (value : Nat → Byte) :
    Host.Outcome State Fault Refusal :=
  if scratchExceeded then .next (s.raise .eResource)
  else if s.buffersMapped hasBias filtSize then
    .next
      { s.complete with
        mem := s.mem.storeRange (s.outAddr 0) s.outDims.flatSize (s.storedByte hasBias filtSize value)
        fresh := s.fresh + s.outDims.flatSize }
  else .refused .buffersNotMapped

/-- One store of a validated CONV or DWCONV made ahead of its completion (20_memory.md R54, R61; log entry 9); there is
no output element `k` to store when `k` is not below the output's size. -/
def State.runTensorStore (s : State) (hasBias : Bool) (filtSize : Nat) (value : Nat → Byte) (k : Nat) :
    Host.Outcome State Fault Refusal :=
  if scratchExceeded then .next s
  else if s.buffersMapped hasBias filtSize then
    if k < s.outDims.flatSize then
      .next { s with mem := s.mem.write (s.outAddr k) (s.storedByte hasBias filtSize value k) }
    else .next s
  else .refused .buffersNotMapped

/-- The rank checks V1 of 41_conv.md R112 and W1 of 42_dwconv.md R142. -/
def State.ranksOk (s : State) (hasBias : Bool) : Bool :=
  decide (s.inRank = 4) && decide (s.filtRank = 4) && decide (s.outRank = 4) && (!hasBias || decide (s.biasRank = 4))

/-- The bias length check V5 and W5, on the exact product. -/
def State.biasOk (s : State) (hasBias : Bool) : Bool := !hasBias || decide (s.biasDims.flatSize = s.outDims.d3)

end Sys2Proof.Machine
end

