-- ==== Sys2Proof/Machine/Conv.lean ====
section
/-! DEFINITION. The CONV command (41_conv.md R110 to R126). -/

namespace Sys2Proof.Machine

/-- The shape checks V1 to V5 (41_conv.md R112). -/
def State.convShapesOk (s : State) (hasBias : Bool) : Bool :=
  s.ranksOk hasBias && decide (s.inDims.d0 = s.outDims.d0) && decide (s.inDims.d3 = s.filtDims.d3) &&
    decide (s.filtDims.d0 = s.outDims.d3) && s.biasOk hasBias

/-- The term of one filter position: nothing when the tap is out of bounds (R115), else the sum over the input channels
of filter times offset input (R117). -/
def State.convTap (s : State) (usgn : Bool) (b oy ox oc fy fx : Nat) : Int :=
  if s.tapInBounds (s.tapY oy fy) (s.tapX ox fx) then
    sumBelow s.inDims.d3 fun ic =>
      s.filtElemConv usgn oc fy fx ic *
        (s.inElem usgn b (s.tapY oy fy).toNat (s.tapX ox fx).toNat ic + s32 (s.get .inOffset))
  else 0

/-- The exact `sum` of R117. -/
def State.convSum (s : State) (hasBias usgn : Bool) (b oy ox oc : Nat) : Int :=
  s.seed hasBias oc +
    sumBelow s.filtDims.d1 fun fy => sumBelow s.filtDims.d2 fun fx => s.convTap usgn b oy ox oc fy fx

/-- The accumulator `acc` of R117: the exact sum modulo 2^32, read as signed. -/
def State.convAcc (s : State) (hasBias usgn : Bool) (b oy ox oc : Nat) : Int := wrap32 (s.convSum hasBias usgn b oy ox oc)

/-- The byte the rules give output element `k`. -/
def State.convByte (s : State) (hasBias usgn : Bool) (k : Nat) : Byte := s.elemByte (s.convAcc hasBias usgn) k

/-- CONV (41_conv.md R122). -/
def execConv (hasBias usgn : Bool) (s : State) : Host.Outcome State Fault Refusal :=
  if s.convShapesOk hasBias then s.runTensor hasBias s.convFiltSize (s.convByte hasBias usgn)
  else .next (s.raise .eShape)

/-- One early store of a running CONV; none before validation has passed (20_memory.md R49). -/
def storeConv (hasBias usgn : Bool) (k : Nat) (s : State) : Host.Outcome State Fault Refusal :=
  if s.convShapesOk hasBias then s.runTensorStore hasBias s.convFiltSize (s.convByte hasBias usgn) k
  else .next s

end Sys2Proof.Machine
end

