-- ==== Sys2Proof/Machine/Dwconv.lean ====
section
/-! DEFINITION. The DWCONV command (42_dwconv.md R140 to R148). -/

namespace Sys2Proof.Machine

/-- The shape checks W1 to W5 (42_dwconv.md R142); `FILT_DIM0` is not checked. -/
def State.dwShapesOk (s : State) (hasBias : Bool) : Bool :=
  s.ranksOk hasBias && decide (s.inDims.d0 = s.outDims.d0) && decide (s.outDims.d3 = s.inDims.d3 * s.depthMult) &&
    decide (s.filtDims.d3 = s.outDims.d3) && s.biasOk hasBias

/-- The input channel of an output channel, `floor(oc / DM)` (R141). -/
def State.dwChannel (s : State) (oc : Nat) : Nat := oc / s.depthMult

/-- The term of one filter position (R144); nothing when the tap is out of bounds. -/
def State.dwTap (s : State) (usgn : Bool) (b oy ox oc fy fx : Nat) : Int :=
  if s.tapInBounds (s.tapY oy fy) (s.tapX ox fx) then
    s.filtElemDw usgn fy fx oc *
      (s.inElem usgn b (s.tapY oy fy).toNat (s.tapX ox fx).toNat (s.dwChannel oc) + s32 (s.get .inOffset))
  else 0

/-- The exact `sum` of R144. -/
def State.dwSum (s : State) (hasBias usgn : Bool) (b oy ox oc : Nat) : Int :=
  s.seed hasBias oc +
    sumBelow s.filtDims.d1 fun fy => sumBelow s.filtDims.d2 fun fx => s.dwTap usgn b oy ox oc fy fx

/-- The accumulator `acc` of R144. -/
def State.dwAcc (s : State) (hasBias usgn : Bool) (b oy ox oc : Nat) : Int := wrap32 (s.dwSum hasBias usgn b oy ox oc)

/-- The byte the rules give output element `k` (R145). -/
def State.dwByte (s : State) (hasBias usgn : Bool) (k : Nat) : Byte := s.elemByte (s.dwAcc hasBias usgn) k

/-- DWCONV (42_dwconv.md R146). -/
def execDwconv (hasBias usgn : Bool) (s : State) : Host.Outcome State Fault Refusal :=
  if s.dwShapesOk hasBias then s.runTensor hasBias s.dwFiltSize (s.dwByte hasBias usgn)
  else .next (s.raise .eShape)

/-- One early store of a running DWCONV; none before validation has passed (20_memory.md R49). -/
def storeDwconv (hasBias usgn : Bool) (k : Nat) (s : State) : Host.Outcome State Fault Refusal :=
  if s.dwShapesOk hasBias then s.runTensorStore hasBias s.dwFiltSize (s.dwByte hasBias usgn) k
  else .next s

end Sys2Proof.Machine
end

