-- ==== Sys2Proof/Machine/Dispatch.lean ====
section
/-! DEFINITION. What each command does, one arm per constructor. -/

namespace Sys2Proof.Machine

def exec (i : Instr) (s : State) : Host.Outcome State Fault Refusal :=
  match i with
  | .conv hasBias usgn => Sys2Proof.Machine.execConv hasBias usgn s
  | .dwconv hasBias usgn => Sys2Proof.Machine.execDwconv hasBias usgn s
  | .qmul => Sys2Proof.Machine.execQmul s

end Sys2Proof.Machine
end

