-- ==== Sys2Proof/Machine/Engine.lean ====
section
/-! DEFINITION. The engine's turn (30_encoding.md R72), the early stores of a running command, and the turn of whichever
agent the agenda names. -/

namespace Sys2Proof.Machine

/-- Whether the engine is running a command (60_exceptions.md R179): idle, or steps 1 to 4 of 30_encoding.md R72 as one
transition.  An idle engine does nothing until the next launch (log entry 14). -/
def State.engineTurn (s : State) : Host.Outcome State Fault Refusal :=
  if s.busy then
    match decode (s.get .cmd) with
    | .instr i => exec i s
    | .illegal _ => .next (s.raise .eCmd)
  else .next s

/-- The write of output element `k`, or of `QM_RESULT`, that a running command makes ahead of its completion
(20_memory.md R54, R56, R61; log entries 9 and 21).  A command that will be rejected makes none (60_exceptions.md R167). -/
def State.engineStore (s : State) (k : Nat) : Host.Outcome State Fault Refusal :=
  if s.busy then
    match decode (s.get .cmd) with
    | .instr (.conv hasBias usgn) => storeConv hasBias usgn k s
    | .instr (.dwconv hasBias usgn) => storeDwconv hasBias usgn k s
    | .instr .qmul => .next s.storeQmul
    | .illegal _ => .next s
  else .next s

/-- The turn `t` taken in state `s`. -/
def State.takeTurn (s : State) (t : Turn) : Host.Outcome State Fault Refusal :=
  match t with
  | .engine => s.engineTurn
  | .engineStore k => s.engineStore k
  | .hostWrite width addr v => s.hostWrite width addr v
  | .hostRead width addr => s.hostRead width addr
  | .memWrite addr b => s.foreignWrite addr b
  | .memRead addr => s.foreignRead addr
  | .reset => .next s.applyReset

/-- The turn that comes next: the first of the agenda, the engine's when it is empty (log entry 3). -/
def State.nextTurn (s : State) : Turn :=
  match s.agenda with
  | [] => .engine
  | t :: _ => t

/-- The state with the next turn taken off the agenda. -/
def State.popTurn (s : State) : State := { s with agenda := s.agenda.tail }

/-- The state in which the command word `w` has just been launched and the engine moves next (log entry 13). -/
def State.launched (s : State) (w : Word) : State := { s.launch w with agenda := .engine :: s.agenda }

end Sys2Proof.Machine
end

