-- ==== Sys2Proof/Machine/Step.lean ====
section
/-! DEFINITION. One step of the machine: one turn of one agent (00_scope.md R8). -/

namespace Sys2Proof.Machine

/-- One step: the next turn of the agenda, taken. -/
def step (s : State) : Host.Outcome State Fault Refusal := s.popTurn.takeTurn s.nextTurn

/-- `s` with the command word of bits `w` launched, the engine moving next.  QCE fetches nothing from memory
(10_state.md R11): a command comes to run by the host's write to `CMD` (30_encoding.md R71; log entry 13). -/
def State.withFetchWord (s : State) (nbits w : Nat) : State := s.launched (BitVec.ofNat 32 (w % 2 ^ nbits))

end Sys2Proof.Machine
end

