-- ==== Sys2Proof/Safety.lean ====
section
/-! DEFINITION. What counts as a safe launch and a sound state, in the terms the claims use: the premises of
70_reset_and_hazards.md R193 to R199 for each command, and the invariant every step keeps. -/

namespace Sys2Proof.Machine

/-- `OutputsDisjoint` (70_reset_and_hazards.md R195) for the whole output: nobody but the engine has written a byte of `OUT`
since the launch. -/
def State.outputsDisjoint (s : State) : Bool := s.foreign.all fun a => !s.outRegion.contains a

/-- The premises over the regions of a command that has a `FILT` region of `filtSize` bytes: `BuffersMapped`, `NoAlias`,
`SourcesStable`, `OutputsDisjoint` (R193, R194, R195, R199). -/
def State.premises (s : State) (hasBias : Bool) (filtSize : Nat) : Bool :=
  s.buffersMapped hasBias filtSize && s.noAlias hasBias filtSize && s.sourcesStable hasBias filtSize && s.outputsDisjoint

/-- The shape checks of a command pass (41_conv.md R112, 42_dwconv.md R142); QMUL has none (40_qmul.md R96). -/
def State.shapesOk (s : State) (i : Instr) : Bool :=
  match i with
  | .conv hasBias _ => s.convShapesOk hasBias
  | .dwconv hasBias _ => s.dwShapesOk hasBias
  | .qmul => true

/-- The regions a command reads (20_memory.md R46, R49). -/
def State.sourcesOf (s : State) (i : Instr) : List Region :=
  match i with
  | .conv hasBias _ => s.sourceRegions hasBias s.convFiltSize
  | .dwconv hasBias _ => s.sourceRegions hasBias s.dwFiltSize
  | .qmul => []

/-- The regions a command reads or writes (R46). -/
def State.regionsOf (s : State) (i : Instr) : List Region :=
  match i with
  | .conv _ _ => s.outRegion :: s.sourcesOf i
  | .dwconv _ _ => s.outRegion :: s.sourcesOf i
  | .qmul => []

/-- `BuffersMapped` (20_memory.md R52) for a command: every region lies inside `MAPPED`, byte by byte, and does not wrap. -/
def State.BuffersMapped (s : State) (i : Instr) : Prop :=
  ∀ r ∈ s.regionsOf i,
    r.size = 0 ∨ (r.base + r.size ≤ 2 ^ 32 ∧ ∀ a, r.base ≤ a → a < r.base + r.size → ∃ q ∈ s.mapped, q.contains a = true)

/-- The command has passed validation and every premise over its regions holds. -/
def State.ready (s : State) (i : Instr) : Bool :=
  match i with
  | .conv hasBias _ => s.convShapesOk hasBias && s.premises hasBias s.convFiltSize
  | .dwconv hasBias _ => s.dwShapesOk hasBias && s.premises hasBias s.dwFiltSize
  | .qmul => true

/-- The index lies inside the output shape (00_scope.md R7). -/
def State.isOutput (s : State) (b oy ox oc : Nat) : Prop :=
  b < s.outDims.d0 ∧ oy < s.outDims.d1 ∧ ox < s.outDims.d2 ∧ oc < s.outDims.d3

/-- `PairsValid` (70_reset_and_hazards.md R198): every triple the primitive is applied to is in `Dom`. -/
def State.PairsValid (s : State) (i : Instr) : Prop :=
  match i with
  | .conv hasBias usgn => ∀ b oy ox oc, s.isOutput b oy ox oc →
      inDom (s.convAcc hasBias usgn b oy ox oc) (s.multElem oc) (s.shiftElem oc) = true
  | .dwconv hasBias usgn => ∀ b oy ox oc, s.isOutput b oy ox oc →
      inDom (s.dwAcc hasBias usgn b oy ox oc) (s.multElem oc) (s.shiftElem oc) = true
  | .qmul => inDom (s32 (s.get .qmAcc)) (s32 (s.get .qmMult)) (s32 (s.get .qmShift)) = true

/-- The sum of magnitudes of `AccSafe` (41_conv.md R118) for one output element of CONV. -/
def State.convMagnitude (s : State) (hasBias usgn : Bool) (b oy ox oc : Nat) : Int :=
  |s.seed hasBias oc| +
    sumBelow s.filtDims.d1 fun fy => sumBelow s.filtDims.d2 fun fx =>
      if s.tapInBounds (s.tapY oy fy) (s.tapX ox fx) then
        sumBelow s.inDims.d3 fun ic =>
          |s.filtElemConv usgn oc fy fx ic *
            (s.inElem usgn b (s.tapY oy fy).toNat (s.tapX ox fx).toNat ic + s32 (s.get .inOffset))|
      else 0

/-- `AccSafe(b, oy, ox, oc)` of CONV (R118; 70_reset_and_hazards.md R197). -/
def State.ConvAccSafe (s : State) (hasBias usgn : Bool) (b oy ox oc : Nat) : Prop :=
  s.convMagnitude hasBias usgn b oy ox oc ≤ 2 ^ 31 - 1

/-- The sum of magnitudes of `AccSafe` for one output element of DWCONV, over `Tdw` (42_dwconv.md R144). -/
def State.dwMagnitude (s : State) (hasBias usgn : Bool) (b oy ox oc : Nat) : Int :=
  |s.seed hasBias oc| +
    sumBelow s.filtDims.d1 fun fy => sumBelow s.filtDims.d2 fun fx =>
      if s.tapInBounds (s.tapY oy fy) (s.tapX ox fx) then
        |s.filtElemDw usgn fy fx oc *
          (s.inElem usgn b (s.tapY oy fy).toNat (s.tapX ox fx).toNat (s.dwChannel oc) + s32 (s.get .inOffset))|
      else 0

/-- `AccSafe(b, oy, ox, oc)` of DWCONV (42_dwconv.md R144; 70_reset_and_hazards.md R197). -/
def State.DwAccSafe (s : State) (hasBias usgn : Bool) (b oy ox oc : Nat) : Prop :=
  s.dwMagnitude hasBias usgn b oy ox oc ≤ 2 ^ 31 - 1

/-- The invariant every step keeps: the data memory is in canonical form (so it lies inside the 2^32 addresses of
20_memory.md R40), and `STATUS` holds one of the five values of 10_state.md R16 that this hardware produces. -/
def State.Inv (s : State) : Prop := s.mem.wf = true ∧ s.get .status ∈ statusValues

/-- A step that gives a next state. -/
def isNext (o : Host.Outcome State Fault Refusal) : Bool :=
  match o with
  | .next _ => true
  | .fault _ => false
  | .refused _ => false

/-- The byte at `a` is outside region `OUT` (20_memory.md R50). -/
def State.outsideOut (s : State) (a : Nat) : Prop :=
  ¬(u32 (s.get .outBase) ≤ a ∧ a < u32 (s.get .outBase) + s.outDims.d0 * s.outDims.d1 * s.outDims.d2 * s.outDims.d3)

end Sys2Proof.Machine
end

