-- ==== Sys2Proof/Certificates/Slice0/Obligations.lean ====
section
/-! DEFINITION. The statements for the provers, each from the numbered rules it names.  `s.get r` is the machine's read of
register `r`, `u32` and `s32` its unsigned and signed reading, `s.mem.read a` the read of one byte. -/

open Sys2Proof Sys2Proof.Machine

/-! ### Encoding -/

/-- 30_encoding.md R73, R80; 95_test_vectors.md EV1 to EV19: the nine legal words, and words of every kind of illegality. -/
def Obligations.ListedWordsDecode : Prop :=
  decode 0x00000001 = .instr (.conv false false) ∧ decode 0x00000011 = .instr (.conv true false) ∧
  decode 0x00000021 = .instr (.conv false true) ∧ decode 0x00000031 = .instr (.conv true true) ∧
  decode 0x00000002 = .instr (.dwconv false false) ∧ decode 0x00000012 = .instr (.dwconv true false) ∧
  decode 0x00000022 = .instr (.dwconv false true) ∧ decode 0x00000032 = .instr (.dwconv true true) ∧
  decode 0x00000003 = .instr .qmul ∧
  decode 0x00000000 = .illegal (.reservedOpcode 0) ∧ decode 0x00000007 = .illegal (.reservedOpcode 7) ∧
  decode 0x0000000F = .illegal (.reservedOpcode 15) ∧ decode 0x00000030 = .illegal (.reservedOpcode 0) ∧
  decode 0x00000013 = .illegal .qmulOption ∧ decode 0x00000023 = .illegal .qmulOption ∧
  decode 0x00000041 = .illegal .reservedBits ∧ decode 0x80000001 = .illegal .reservedBits ∧
  decode 0xFFFFFFFF = .illegal .reservedBits

/-- R70, R73, R76: a word decodes to a command exactly when it is that command's encoding. -/
def Obligations.DecodeInvertsEncode : Prop :=
  ∀ (w : Word) (i : Instr), decode w = .instr i ↔ w = encode i

/-- R76 in full. -/
def Obligations.LegalIsExactlyNineWords : Prop :=
  ∀ w : Word,
    (legalWord w = true ↔ w.extractLsb' 6 26 = 0 ∧
      (w.extractLsb' 0 4 = 1 ∨ w.extractLsb' 0 4 = 2 ∨ (w.extractLsb' 0 4 = 3 ∧ w.extractLsb' 4 2 = 0))) ∧
    (legalWord w = true ↔ w ∈ ([0x01, 0x11, 0x21, 0x31, 0x02, 0x12, 0x22, 0x32, 0x03] : List Word)) ∧
    (legalWord w = true ↔ ∃ i, decode w = .instr i) ∧
    (legalWord w = false → ∀ s : State, s.nextTurn = .engine → s.busy = true → s.get .cmd = w →
      ∃ t, step s = .next t ∧ t.get .status = 0x00000304 ∧ (∀ r, r ≠ .status → t.get r = s.get r) ∧
        ∀ a, t.mem.read a = s.mem.read a)

/-- R82: the three rows of the opcode table. -/
def Obligations.OpcodeTableRows : Prop :=
  ∀ w : Word,
    ((∃ hasBias usgn, decode w = .instr (.conv hasBias usgn)) ↔ w &&& 0xFFFFFFCF = 0x00000001) ∧
    ((∃ hasBias usgn, decode w = .instr (.dwconv hasBias usgn)) ↔ w &&& 0xFFFFFFCF = 0x00000002) ∧
    (decode w = .instr .qmul ↔ w &&& 0xFFFFFFFF = 0x00000003) ∧
    (∀ hasBias usgn, decode w = .instr (.conv hasBias usgn) ∨ decode w = .instr (.dwconv hasBias usgn) →
      hasBias = w.getLsbD 4 ∧ usgn = w.getLsbD 5) ∧
    (w &&& 0xFFFFFFCF ≠ 0x00000001 → w &&& 0xFFFFFFCF ≠ 0x00000002 → w &&& 0xFFFFFFFF ≠ 0x00000003 →
      ∃ why, decode w = .illegal why) ∧
    (∀ i, decode w = .instr i →
      w.extractLsb' 0 2 = match i with | .conv _ _ => 1 | .dwconv _ _ => 2 | .qmul => 3)

/-! ### The step, the launch, the rejection -/

/-- R71, R72: when it is the engine's turn and a command runs, the step is that command's meaning; and the state
`withFetchWord` gives is one whose next step runs the command. -/
def Obligations.EngineTurnRunsDecodedCommand : Prop :=
  (∀ (s : State) (i : Instr), s.nextTurn = .engine → s.busy = true → decode (s.get .cmd) = .instr i →
    step s = exec i s.popTurn) ∧
  (∀ (s : State) (w : Word) (i : Instr), decode w = .instr i →
    step (s.withFetchWord 32 w.toNat) = exec i (s.launch w))

/-- 60_exceptions.md R179, R180 (log entry 14: the model's choice that an idle turn is a step): an idle engine waits. -/
def Obligations.IdleEngineWaits : Prop :=
  ∀ s : State, s.nextTurn = .engine → s.busy = false → step s = .next s.popTurn

/-- R71. -/
def Obligations.LaunchLatchesCommand : Prop :=
  ∀ (s : State) (w : Word), s.nextTurn = .hostWrite 32 (s.qceBase + 0x00) w →
    (s.busy = false → ∃ t, step s = .next t ∧ t.get .cmd = w ∧ t.get .status = 0x00000001 ∧
      statusBusyBit (t.get .status) = true ∧ statusDoneBit (t.get .status) = false ∧
      statusErrorBit (t.get .status) = false ∧ statusEcode (t.get .status) = 0 ∧
      (∀ r, r ≠ .cmd → r ≠ .status → t.get r = s.get r) ∧ t.mem = s.mem) ∧
    (s.busy = true → step s = .next s.popTurn)

/-- 60_exceptions.md R163. -/
def Obligations.RejectionChangesStatusOnly : Prop :=
  ∀ (s : State) (e : ErrorCode),
    (s.raise e).get .status = 0x00000004 + 0x100 * e.code ∧
    statusBusyBit ((s.raise e).get .status) = false ∧ statusDoneBit ((s.raise e).get .status) = false ∧
    statusErrorBit ((s.raise e).get .status) = true ∧
    statusEcode ((s.raise e).get .status) = (match e with | .eShape => 1 | .eResource => 2 | .eCmd => 3) ∧
    (∀ r, r ≠ .status → (s.raise e).get r = s.get r) ∧ (s.raise e).mem = s.mem ∧
    (s.raise e).busy = false ∧
    (∀ w, ∃ t, (s.raise e).hostWrite 32 (s.qceBase + 0x00) w = .next t ∧ t.get .cmd = w ∧ t.busy = true) ∧
    (∀ r v, r ≠ .cmd → r.readOnly = false →
      ∃ t, (s.raise e).hostWrite 32 (s.qceBase + r.offset) v = .next t ∧ t.get r = v)

/-- 60_exceptions.md R165. -/
def Obligations.IllegalWordRaisesECmd : Prop :=
  ∀ s : State, s.nextTurn = .engine → s.busy = true →
    ((s.get .cmd).extractLsb' 0 4 = 0 ∨ 4 ≤ (s.get .cmd).extractLsb' 0 4 ∨ (s.get .cmd).extractLsb' 6 26 ≠ 0 ∨
      ((s.get .cmd).extractLsb' 0 4 = 3 ∧ (s.get .cmd).extractLsb' 4 2 ≠ 0)) →
    step s = .next (s.popTurn.raise .eCmd)

/-- 60_exceptions.md R169: launching a rejected word again with nothing changed is rejected again with the same code. -/
def Obligations.RelaunchIsRejectedAgain : Prop :=
  ∀ s t : State, s.busy = true → s.engineTurn = .next t → statusErrorBit (t.get .status) = true →
    ∃ u, (t.launch (t.get .cmd)).engineTurn = .next u ∧ u.get .status = t.get .status

/-! ### The primitive and QMUL -/

/-- 40_qmul.md R91. -/
def Obligations.RoundHalfAwayIsNearest : Prop :=
  (∀ n : Int, roundHalfAway n 0 = n) ∧
  (∀ (n : Int) (k : Nat), 0 ≤ n → 1 ≤ k → roundHalfAway n k = Int.fdiv (n + 2 ^ (k - 1)) (2 ^ k)) ∧
  (∀ (n : Int) (k : Nat), n < 0 → 1 ≤ k → roundHalfAway n k = -Int.fdiv (-n + 2 ^ (k - 1)) (2 ^ k)) ∧
  (∀ (n : Int) (k : Nat), 2 * |roundHalfAway n k * 2 ^ k - n| ≤ 2 ^ k) ∧
  (∀ (n : Int) (k : Nat), 2 * |roundHalfAway n k * 2 ^ k - n| = 2 ^ k → |n| < |roundHalfAway n k * 2 ^ k|) ∧
  (∀ (n : Int) (k : Nat), roundHalfAway (-n) k = -roundHalfAway n k) ∧
  (∀ acc m s : Int, s < 0 → qMul acc m s = roundHalfAway (acc * m) (-s).toNat) ∧
  qMul 1 (2 ^ 30) (-31) = 1

/-- 40_qmul.md R95, the table of results inside `Dom`. -/
def Obligations.QMulLaws : Prop :=
  (∀ m s : Int, qMul 0 m s = 0) ∧
  (∀ acc s : Int, qMul acc 0 s = 0) ∧
  (∀ acc m s : Int, qMul (-acc) m s = -qMul acc m s) ∧
  (∀ acc m s : Int, 0 ≤ m → 0 ≤ acc → 0 ≤ qMul acc m s) ∧
  (∀ acc m s : Int, 0 ≤ m → acc ≤ 0 → qMul acc m s ≤ 0) ∧
  (∀ acc m : Int, qMul acc m 0 = acc * m) ∧
  (∀ (acc m h : Int) (k : Nat), 0 ≤ h → 1 ≤ k → 2 * (acc * m) = (2 * h + 1) * 2 ^ k → qMul acc m (-k) = h + 1) ∧
  (∀ (acc m h : Int) (k : Nat), 0 ≤ h → 1 ≤ k → 2 * (acc * m) = -((2 * h + 1) * 2 ^ k) →
    qMul acc m (-k) = -(h + 1)) ∧
  (∀ acc acc' m s : Int, 0 ≤ m → acc ≤ acc' → qMul acc m s ≤ qMul acc' m s)

/-- 40_qmul.md R93: the third condition of `Dom` holds for every 32-bit accumulator when the scale is at most 1, in
particular for every valid multiplier with `s ≤ −31`. -/
def Obligations.DomHoldsForScalesUpToOne : Prop :=
  ∀ acc m s : Int, fits32 acc = true → validPair m s = true →
    (s ≤ 0 → m ≤ 2 ^ (-s).toNat → inDom acc m s = true) ∧ (s ≤ -31 → inDom acc m s = true)

/-- 40_qmul.md R98: the 64-bit datapath gives the primitive's value on `Dom`. -/
def Obligations.FixedWidthDatapathAgrees : Prop :=
  ∀ acc m s : Int, inDom acc m s = true →
    let p : BitVec 64 := BitVec.ofInt 64 (acc * m)
    let k : Nat := (-s).toNat
    let shifted : BitVec 64 :=
      if s < 0 then (p + (if 0 ≤ p.toInt then BitVec.ofNat 64 (2 ^ (k - 1)) else BitVec.ofNat 64 (2 ^ (k - 1) - 1))).sshiftRight k
      else p <<< s.toNat
    p.toInt = acc * m ∧ (shifted.setWidth 32).toInt = qMul acc m s

/-- 40_qmul.md R96, R94: QMUL always completes; its result is `QMul` inside `Dom`, and outside it the free value and
nothing else changes (log entry 5). -/
def Obligations.QmulCompletes : Prop :=
  ∀ s : State, ∃ t, exec .qmul s = .next t ∧ t.get .status = 0x00000002 ∧
    (inDom (s32 (s.get .qmAcc)) (s32 (s.get .qmMult)) (s32 (s.get .qmShift)) = true →
      s32 (t.get .qmResult) = qMul (s32 (s.get .qmAcc)) (s32 (s.get .qmMult)) (s32 (s.get .qmShift))) ∧
    (inDom (s32 (s.get .qmAcc)) (s32 (s.get .qmMult)) (s32 (s.get .qmShift)) = false →
      t.get .qmResult = Config.freeValue s.fresh)

/-- 10_state.md R25, 40_qmul.md R96: what QMUL leaves unchanged. -/
def Obligations.QmulFrame : Prop :=
  ∀ s t : State, exec .qmul s = .next t →
    (∀ r, r ≠ .status → r ≠ .qmResult → t.get r = s.get r) ∧ (∀ a, t.mem.read a = s.mem.read a) ∧
    t.mapped = s.mapped ∧ t.qceBase = s.qceBase ∧ t.agenda = s.agenda ∧ t.readData = s.readData

/-! ### Validation of CONV and DWCONV -/

/-- 41_conv.md R112. -/
def Obligations.ConvShapeChecks : Prop :=
  ∀ (s : State) (hasBias usgn : Bool),
    let v1 : Prop := (s.get .shapeRank).extractLsb' 0 8 = 4 ∧ (s.get .shapeRank).extractLsb' 8 8 = 4 ∧
      (s.get .shapeRank).extractLsb' 24 8 = 4 ∧ (hasBias = true → (s.get .shapeRank).extractLsb' 16 8 = 4)
    let v2 : Prop := u32 (s.get .inDim0) = u32 (s.get .outDim0)
    let v3 : Prop := u32 (s.get .inDim3) = u32 (s.get .filtDim3)
    let v4 : Prop := u32 (s.get .filtDim0) = u32 (s.get .outDim3)
    let v5 : Prop := hasBias = true →
      u32 (s.get .biasDim0) * u32 (s.get .biasDim1) * u32 (s.get .biasDim2) * u32 (s.get .biasDim3) = u32 (s.get .outDim3)
    (¬(v1 ∧ v2 ∧ v3 ∧ v4 ∧ v5) → exec (.conv hasBias usgn) s = .next (s.raise .eShape)) ∧
    (v1 ∧ v2 ∧ v3 ∧ v4 ∧ v5 → ∀ t, exec (.conv hasBias usgn) s = .next t → t.get .status = 0x00000002)

/-- 42_dwconv.md R142. -/
def Obligations.DwconvShapeChecks : Prop :=
  ∀ (s : State) (hasBias usgn : Bool),
    let w1 : Prop := (s.get .shapeRank).extractLsb' 0 8 = 4 ∧ (s.get .shapeRank).extractLsb' 8 8 = 4 ∧
      (s.get .shapeRank).extractLsb' 24 8 = 4 ∧ (hasBias = true → (s.get .shapeRank).extractLsb' 16 8 = 4)
    let w2 : Prop := u32 (s.get .inDim0) = u32 (s.get .outDim0)
    let w3 : Prop := u32 (s.get .outDim3) = u32 (s.get .inDim3) * u32 (s.get .depthMult)
    let w4 : Prop := u32 (s.get .filtDim3) = u32 (s.get .outDim3)
    let w5 : Prop := hasBias = true →
      u32 (s.get .biasDim0) * u32 (s.get .biasDim1) * u32 (s.get .biasDim2) * u32 (s.get .biasDim3) = u32 (s.get .outDim3)
    (¬(w1 ∧ w2 ∧ w3 ∧ w4 ∧ w5) → exec (.dwconv hasBias usgn) s = .next (s.raise .eShape)) ∧
    (w1 ∧ w2 ∧ w3 ∧ w4 ∧ w5 → ∀ t, exec (.dwconv hasBias usgn) s = .next t → t.get .status = 0x00000002)

/-- 60_exceptions.md R171, 70_reset_and_hazards.md R201: every validated command whose buffers are mapped completes with
`DONE`, whatever its data, its multipliers, its clamp bounds, aliasing and foreign writes (log entry 6). -/
def Obligations.ValidatedCommandsComplete : Prop :=
  ∀ (s : State) (i : Instr), s.shapesOk i = true → s.BuffersMapped i →
    ∃ t, exec i s = .next t ∧ t.get .status = 0x00000002

/-- 20_memory.md R52, 93 U6 (log entry 8): a validated command with a region that is not wholly mapped, or that wraps, has no
meaning, and nothing else of CONV and DWCONV is refused. -/
def Obligations.UnmappedBuffersRefused : Prop :=
  ∀ (s : State) (i : Instr), s.shapesOk i = true → ¬s.BuffersMapped i → exec i s = .refused .buffersNotMapped

/-! ### The computation of CONV and DWCONV -/

/-- 41_conv.md R114 to R122: every output byte of CONV.  Outside `Dom` the rescaled value is the model's free value (log
entry 5). -/
def Obligations.ConvComputesEveryOutput : Prop :=
  ∀ (s : State) (hasBias usgn : Bool), s.ready (.conv hasBias usgn) = true →
    ∃ t, exec (.conv hasBias usgn) s = .next t ∧ t.get .status = 0x00000002 ∧
      ∀ b oy ox oc, s.isOutput b oy ox oc →
        let inY : Nat → Int := fun fy => (oy : Int) * u32 (s.get .strideH) - u32 (s.get .padH) + u32 (s.get .dilH) * fy
        let inX : Nat → Int := fun fx => (ox : Int) * u32 (s.get .strideW) - u32 (s.get .padW) + u32 (s.get .dilW) * fx
        let sum : Int := (if hasBias then s.biasElem oc else 0) +
          ∑ fy ∈ Finset.range (u32 (s.get .filtDim1)), ∑ fx ∈ Finset.range (u32 (s.get .filtDim2)),
            if 0 ≤ inY fy ∧ inY fy < u32 (s.get .inDim1) ∧ 0 ≤ inX fx ∧ inX fx < u32 (s.get .inDim2) then
              ∑ ic ∈ Finset.range (u32 (s.get .inDim3)),
                s.filtElemConv usgn oc fy fx ic *
                  (s.inElem usgn b (inY fy).toNat (inX fx).toNat ic + s32 (s.get .inOffset))
            else 0
        let acc : Int := wrap32 sum
        let k : Nat := s.outDims.index b oy ox oc
        let scaled : Int := if inDom acc (s.multElem oc) (s.shiftElem oc) then qMul acc (s.multElem oc) (s.shiftElem oc)
          else (Config.freeValue (s.fresh + k)).toInt
        t.mem.read (u32 (s.get .outBase) + k) =
          low8 (max (s32 (s.get .actMin)) (min (scaled + s32 (s.get .outOffset)) (s32 (s.get .actMax))))

/-- 42_dwconv.md R141, R143 to R146: every output byte of DWCONV.  Outside `Dom` the rescaled value is the model's free value
(log entry 5). -/
def Obligations.DwconvComputesEveryOutput : Prop :=
  ∀ (s : State) (hasBias usgn : Bool), s.ready (.dwconv hasBias usgn) = true →
    ∃ t, exec (.dwconv hasBias usgn) s = .next t ∧ t.get .status = 0x00000002 ∧
      ∀ b oy ox oc, s.isOutput b oy ox oc →
        let inY : Nat → Int := fun fy => (oy : Int) * u32 (s.get .strideH) - u32 (s.get .padH) + u32 (s.get .dilH) * fy
        let inX : Nat → Int := fun fx => (ox : Int) * u32 (s.get .strideW) - u32 (s.get .padW) + u32 (s.get .dilW) * fx
        let ic : Nat := oc / u32 (s.get .depthMult)
        let sum : Int := (if hasBias then s.biasElem oc else 0) +
          ∑ fy ∈ Finset.range (u32 (s.get .filtDim1)), ∑ fx ∈ Finset.range (u32 (s.get .filtDim2)),
            if 0 ≤ inY fy ∧ inY fy < u32 (s.get .inDim1) ∧ 0 ≤ inX fx ∧ inX fx < u32 (s.get .inDim2) then
              s.filtElemDw usgn fy fx oc *
                (s.inElem usgn b (inY fy).toNat (inX fx).toNat ic + s32 (s.get .inOffset))
            else 0
        let acc : Int := wrap32 sum
        let k : Nat := s.outDims.index b oy ox oc
        let scaled : Int := if inDom acc (s.multElem oc) (s.shiftElem oc) then qMul acc (s.multElem oc) (s.shiftElem oc)
          else (Config.freeValue (s.fresh + k)).toInt
        ic < u32 (s.get .inDim3) ∧
        t.mem.read (u32 (s.get .outBase) + k) =
          low8 (max (s32 (s.get .actMin)) (min (scaled + s32 (s.get .outOffset)) (s32 (s.get .actMax))))

/-- 10_state.md R25, 20_memory.md R50: what CONV and DWCONV leave unchanged, completed or rejected: every register but
`STATUS`, and every byte outside region `OUT`. -/
def Obligations.TensorFrame : Prop :=
  ∀ (s t : State) (i : Instr), i ≠ .qmul → exec i s = .next t →
    (∀ r, r ≠ .status → t.get r = s.get r) ∧ (∀ a, s.outsideOut a → t.mem.read a = s.mem.read a) ∧
    (t.get .status ≠ 0x00000002 → ∀ a, t.mem.read a = s.mem.read a) ∧
    t.mapped = s.mapped ∧ t.qceBase = s.qceBase ∧ t.agenda = s.agenda ∧ t.readData = s.readData

/-- 41_conv.md R125. -/
def Obligations.ReversedBoundsPinToMin : Prop :=
  (∀ lo hi t : Int, hi < lo → clamp lo hi t = lo ∧ min hi (max lo t) = hi) ∧
  (∀ (s : State) (i : Instr), i ≠ .qmul → s.ready i = true → s32 (s.get .actMax) < s32 (s.get .actMin) →
    ∃ t, exec i s = .next t ∧ t.get .status = 0x00000002 ∧
      ∀ k, k < s.outDims.flatSize → t.mem.read (u32 (s.get .outBase) + k) = low8 (s32 (s.get .actMin)))

/-- 41_conv.md R121, R126: with both bounds in the element type's range and in order, every output byte read in that type lies
between the bounds. -/
def Obligations.OutputsLieWithinBounds : Prop :=
  ∀ (s t : State) (i : Instr) (usgn : Bool), i ≠ .qmul → s.ready i = true → exec i s = .next t →
    s32 (s.get .actMin) ≤ s32 (s.get .actMax) →
    (if usgn then 0 else -128) ≤ s32 (s.get .actMin) → s32 (s.get .actMax) ≤ (if usgn then 255 else 127) →
    ∀ k, k < s.outDims.flatSize →
      s32 (s.get .actMin) ≤ ext usgn (t.mem.read (u32 (s.get .outBase) + k)).toNat ∧
      ext usgn (t.mem.read (u32 (s.get .outBase) + k)).toNat ≤ s32 (s.get .actMax)

/-- 41_conv.md R126: a filter of zeros and no or zero bias give a pure-offset result. -/
def Obligations.ZeroFilterGivesOffset : Prop :=
  ∀ (s : State) (hasBias usgn : Bool), s.ready (.conv hasBias usgn) = true →
    (∀ oc fy fx ic, oc < u32 (s.get .outDim3) → fy < u32 (s.get .filtDim1) → fx < u32 (s.get .filtDim2) →
      ic < u32 (s.get .inDim3) → s.filtElemConv usgn oc fy fx ic = 0) →
    (∀ oc, oc < u32 (s.get .outDim3) → s.seed hasBias oc = 0 ∧ validPair (s.multElem oc) (s.shiftElem oc) = true) →
    ∃ t, exec (.conv hasBias usgn) s = .next t ∧
      ∀ k, k < s.outDims.flatSize → t.mem.read (u32 (s.get .outBase) + k) =
        low8 (max (s32 (s.get .actMin)) (min (s32 (s.get .outOffset)) (s32 (s.get .actMax))))

/-- 41_conv.md R124, 42_dwconv.md R147, 20_memory.md R50: an output with a zero dimension is completed with nothing
written. -/
def Obligations.ZeroSizeOutputWritesNothing : Prop :=
  ∀ (s : State) (i : Instr), i ≠ .qmul → s.shapesOk i = true → s.BuffersMapped i →
    (u32 (s.get .outDim0) = 0 ∨ u32 (s.get .outDim1) = 0 ∨ u32 (s.get .outDim2) = 0 ∨ u32 (s.get .outDim3) = 0) →
    ∃ t, exec i s = .next t ∧ t.get .status = 0x00000002 ∧ t.mem = s.mem

/-- 41_conv.md R124, 42_dwconv.md R147: a zero filter or input dimension leaves the seed alone in the accumulator. -/
def Obligations.EmptyTapSetLeavesSeed : Prop :=
  ∀ (s : State) (hasBias usgn : Bool) (b oy ox oc : Nat),
    ((u32 (s.get .filtDim1) = 0 ∨ u32 (s.get .filtDim2) = 0 ∨ u32 (s.get .inDim1) = 0 ∨ u32 (s.get .inDim2) = 0 ∨
        u32 (s.get .inDim3) = 0) →
      s.convAcc hasBias usgn b oy ox oc = s.seed hasBias oc) ∧
    ((u32 (s.get .filtDim1) = 0 ∨ u32 (s.get .filtDim2) = 0 ∨ u32 (s.get .inDim1) = 0 ∨ u32 (s.get .inDim2) = 0) →
      s.dwAcc hasBias usgn b oy ox oc = s.seed hasBias oc)

/-- 41_conv.md R118, R117, 42_dwconv.md R144: inside `AccSafe` the accumulator of CONV and of DWCONV is the exact sum; and the
bounds that need no data. -/
def Obligations.AccSafeGivesExactSum : Prop :=
  ∀ (s : State) (hasBias usgn : Bool) (b oy ox oc : Nat),
    (s.ConvAccSafe hasBias usgn b oy ox oc → s.convAcc hasBias usgn b oy ox oc = s.convSum hasBias usgn b oy ox oc) ∧
    (usgn = false → -256 ≤ s32 (s.get .inOffset) → s32 (s.get .inOffset) ≤ 255 →
      |s.seed hasBias oc| + 49152 * (u32 (s.get .filtDim1) * u32 (s.get .filtDim2) * u32 (s.get .inDim3) : Nat) ≤ 2 ^ 31 - 1 →
      s.ConvAccSafe hasBias usgn b oy ox oc) ∧
    (s.DwAccSafe hasBias usgn b oy ox oc → s.dwAcc hasBias usgn b oy ox oc = s.dwSum hasBias usgn b oy ox oc) ∧
    (usgn = false → -256 ≤ s32 (s.get .inOffset) → s32 (s.get .inOffset) ≤ 255 →
      |s.seed hasBias oc| + 49152 * (u32 (s.get .filtDim1) * u32 (s.get .filtDim2) : Nat) ≤ 2 ^ 31 - 1 →
      s.DwAccSafe hasBias usgn b oy ox oc)

/-- 42_dwconv.md R148: DWCONV with depth multiplier 1 gives the bytes of CONV with the diagonal filter. -/
def Obligations.DiagonalConvEqualsDwconv : Prop :=
  ∀ (s d : State) (hasBias usgn : Bool),
    s.ready (.conv hasBias usgn) = true → d.ready (.dwconv hasBias usgn) = true →
    d.mem = s.mem → d.fresh = s.fresh →
    (∀ r, r ≠ .filtDim0 → r ≠ .filtDim3 → r ≠ .filtBase → r ≠ .depthMult → r ≠ .cmd → r ≠ .status → d.get r = s.get r) →
    u32 (d.get .depthMult) = 1 → u32 (s.get .outDim3) = u32 (s.get .inDim3) →
    (∀ oc fy fx ic, oc < u32 (s.get .outDim3) → fy < u32 (s.get .filtDim1) → fx < u32 (s.get .filtDim2) →
      ic < u32 (s.get .inDim3) →
      s.filtElemConv usgn oc fy fx ic = if ic = oc then d.filtElemDw usgn fy fx oc else 0) →
    ∃ t e, exec (.conv hasBias usgn) s = .next t ∧ exec (.dwconv hasBias usgn) d = .next e ∧
      ∀ k, k < s.outDims.flatSize →
        t.mem.read (u32 (s.get .outBase) + k) = e.mem.read (u32 (s.get .outBase) + k)

/-- 20_memory.md R49, R54, 10_state.md R23: a command's result depends on the registers and the bytes of the regions it reads,
and on no other byte (an aliased or disturbed command is outside `ready`, log entry 6).  Outside `Dom` the equality rests on
the model's choice that the free value is indexed by the counter and the element alone (log entry 5): the spec lets it differ
(40_qmul.md R94). -/
def Obligations.ResultDependsOnSourcesOnly : Prop :=
  ∀ (s : State) (i : Instr) (m : Memory), s.ready i = true →
    (∀ r ∈ s.sourcesOf i, ∀ a, r.contains a = true → m.read a = s.mem.read a) →
    ∃ t u, exec i s = .next t ∧ exec i { s with mem := m } = .next u ∧ u.win = t.win ∧
      (∀ a, s.outsideOut a → u.mem.read a = m.read a) ∧
      (i ≠ .qmul → ∀ a, ¬s.outsideOut a → u.mem.read a = t.mem.read a)

/-- 10_state.md R25: the same command launched twice with the same registers and sources, the output region holding anything in
between, gives the same bytes and the same `QM_RESULT`. -/
def Obligations.CommandsAreIdempotent : Prop :=
  ∀ (s : State) (i : Instr) (w : Word) (m : Memory), s.ready i = true → s.PairsValid i →
    (∀ a, i = .qmul ∨ s.outsideOut a → m.read a = s.mem.read a) →
    ∃ t u, exec i s = .next t ∧ exec i { t.launch w with mem := m } = .next u ∧
      (∀ a, u.mem.read a = t.mem.read a) ∧ u.get .qmResult = t.get .qmResult ∧ u.get .status = t.get .status

/-- 20_memory.md R54, R56, R61: a store the engine makes ahead of its completion cannot be seen once the command has
completed (log entry 9). -/
def Obligations.EarlyStoresDoNotShowAfterCompletion : Prop :=
  ∀ (s t : State) (i : Instr) (k : Nat), s.busy = true → decode (s.get .cmd) = .instr i → s.ready i = true →
    s.engineStore k = .next t →
    ∃ u v, s.engineTurn = .next u ∧ t.engineTurn = .next v ∧ v.win = u.win ∧ v.fresh = u.fresh ∧
      ∀ a, v.mem.read a = u.mem.read a

/-- 20_memory.md R61, R50, 60_exceptions.md R160, R167, 10_state.md R21 (log entries 9, 21): an idle engine, and a command that
will be rejected, store nothing early.  Of a running CONV or DWCONV an early store changes at most the one byte of `OUT` it
stores, of a running QMUL only `QM_RESULT`; what it changes then has the value the engine's turn gives it, and the command
still runs. -/
def Obligations.EarlyStoreFrame : Prop :=
  (∀ (s : State) (k : Nat),
    (s.busy = false ∨ (∃ why, decode (s.get .cmd) = .illegal why) ∨
      (∃ i, decode (s.get .cmd) = .instr i ∧ s.shapesOk i = false)) →
    s.engineStore k = .next s) ∧
  (∀ (s t : State) (k : Nat), s.engineStore k = .next t →
    (∀ r, r ≠ .qmResult → t.get r = s.get r) ∧ t.busy = s.busy ∧
    (∀ a, a ≠ s.outAddr k → t.mem.read a = s.mem.read a) ∧
    ((s.busy = true ∧ k < s.outDims.flatSize ∧
        ∃ i, i ≠ .qmul ∧ decode (s.get .cmd) = .instr i ∧ s.shapesOk i = true) ∨
      ∀ a, t.mem.read a = s.mem.read a) ∧
    ((s.busy = true ∧ decode (s.get .cmd) = .instr .qmul) ∨ t.get .qmResult = s.get .qmResult) ∧
    t.mapped = s.mapped ∧ t.qceBase = s.qceBase ∧ t.agenda = s.agenda ∧ t.readData = s.readData ∧ t.foreign = s.foreign ∧
    (∀ u, s.engineTurn = .next u →
      (t.mem.read (s.outAddr k) = s.mem.read (s.outAddr k) ∨ t.mem.read (s.outAddr k) = u.mem.read (s.outAddr k)) ∧
      (t.get .qmResult = s.get .qmResult ∨ t.get .qmResult = u.get .qmResult)))

/-! ### The register window and the data memory -/

/-- 10_state.md R12: every register is at one offset of the window, and no two share one. -/
def Obligations.RegisterOffsetsAreDistinct : Prop :=
  (∀ r : Reg, Reg.ofOffset r.offset = some r ∧ r.offset % 4 = 0 ∧ r.offset < 0x100) ∧
  (∀ r q : Reg, r.offset = q.offset → r = q)

/-- 10_state.md R14; the window stands at `QCE_BASE` of the host's address map (20_memory.md R41). -/
def Obligations.HostWritesRespectBusyAndAccess : Prop :=
  ∀ (s : State) (r : Reg) (v : Word),
    (s.nextTurn = .hostWrite 32 (s.qceBase + r.offset) v → s.busy = true → step s = .next s.popTurn) ∧
    (s.nextTurn = .hostWrite 32 (s.qceBase + r.offset) v → s.busy = false → r.readOnly = false →
      ∃ t, step s = .next t ∧ t.get r = v ∧ (r ≠ .cmd → ∀ q, q ≠ r → t.get q = s.get q) ∧ t.mem = s.mem) ∧
    (s.nextTurn = .hostWrite 32 (s.qceBase + r.offset) v → s.busy = false → r.readOnly = true → step s = .next s.popTurn) ∧
    (r.readOnly = true ↔ r = .status ∨ r = .qmResult) ∧
    (s.nextTurn = .hostRead 32 (s.qceBase + r.offset) → ∃ t, step s = .next t ∧ t.readData = s.get r)

/-- 10_state.md R13; for an access outside it the model's choice, a refusal (log entry 11). -/
def Obligations.WindowAccessRules : Prop :=
  ∀ (s : State) (width addr offset : Nat) (v : Word),
    let reserved : Prop := offset = 0x0C ∨ offset = 0x3C ∨ offset = 0x98 ∨ offset = 0x9C ∨
      (0xB0 ≤ offset ∧ offset ≤ 0xFC ∧ offset % 4 = 0)
    (reserved → s.nextTurn = .hostRead 32 (s.qceBase + offset) → ∃ t, step s = .next t ∧ t.readData = 0) ∧
    (reserved → s.nextTurn = .hostWrite 32 (s.qceBase + offset) v → step s = .next s.popTurn) ∧
    (s.nextTurn = .hostRead width addr → ∀ t, step s = .next t → t.win = s.win ∧ t.mem = s.mem) ∧
    (¬(width = 32 ∧ ∃ o, addr = s.qceBase + o ∧ o % 4 = 0 ∧ o < 0x100) →
      (s.nextTurn = .hostRead width addr → step s = .refused (.windowAccess width addr)) ∧
      (s.nextTurn = .hostWrite width addr v → step s = .refused (.windowAccess width addr)))

/-- 00_scope.md R6, 20_memory.md R40, R45: a byte stored is read back, every other byte reads as before, and the canonical form
is kept. -/
def Obligations.MemoryReadsAfterWrites : Prop :=
  ∀ (m : Memory) (a : Nat) (b : Byte),
    (∀ a', (m.write a b).read a' = if a' = a then b else m.read a') ∧
    (m.wf = true → a < 2 ^ 32 → (m.write a b).wf = true)

/-- 20_memory.md R43, R44: a 4-byte element at any address, and its byte `k` is bits `8k+7:8k`. -/
def Obligations.ElementsAreLittleEndian : Prop :=
  ∀ (m : Memory) (a : Nat),
    m.readLE a 4 = (m.read a).toNat + 2 ^ 8 * (m.read (a + 1)).toNat + 2 ^ 16 * (m.read (a + 2)).toNat +
      2 ^ 24 * (m.read (a + 3)).toNat ∧
    ∀ k, k < 4 → m.readLE (a + k) 1 = m.readLE a 4 / 2 ^ (8 * k) % 2 ^ 8

/-- 20_memory.md R40, 70_reset_and_hazards.md R194, R195 (log entries 7, 12, 22): the turns of other agents on the data memory. -/
def Obligations.OtherAgentsAccessMappedMemory : Prop :=
  ∀ (s : State) (addr : Word) (b : Byte),
    (s.byteMapped addr.toNat = true → s.nextTurn = .memWrite addr b →
      ∃ t, step s = .next t ∧ t.win = s.win ∧
        (∀ a, t.mem.read a = if a = addr.toNat then b else s.mem.read a) ∧
        (s.busy = true → addr.toNat ∈ t.foreign ∧ ∀ a ∈ s.foreign, a ∈ t.foreign) ∧
        (s.busy = false → t.foreign = s.foreign)) ∧
    (s.byteMapped addr.toNat = true → s.nextTurn = .memRead addr →
      ∃ t, step s = .next t ∧ t.win = s.win ∧ t.mem = s.mem ∧ t.readData.toNat = (s.mem.read addr.toNat).toNat) ∧
    (s.byteMapped addr.toNat = false → s.nextTurn = .memWrite addr b ∨ s.nextTurn = .memRead addr →
      step s = .fault (.unmappedByte addr.toNat))

/-! ### Reset, and rules of the whole machine -/

/-- 10_state.md R26: what every register reads after reset. -/
def Obligations.ResetRegisterValues : Prop :=
  (∀ r : Reg, State.reset.get r = if r = .shapeRank then 0x04040404 else 0) ∧ State.reset.busy = false

/-- 70_reset_and_hazards.md R190, R191 (log entry 20): reset at any time gives the window its reset
values and leaves the data memory. -/
def Obligations.ResetTurnRestoresWindow : Prop :=
  ∀ s : State, s.nextTurn = .reset →
    ∃ t, step s = .next t ∧ (∀ r : Reg, t.get r = State.reset.get r) ∧ t.mem = s.mem ∧ t.busy = false

/-- 10_state.md R16, 20_memory.md R40: the invariant at reset, where memory lists nothing (log entry 1). -/
def Obligations.ResetMeetsInvariant : Prop := State.reset.Inv

/-- 10_state.md R16, 60_exceptions.md R164, 20_memory.md R40, R50: every step keeps the canonical form of the data memory inside
the data space and the legal values of `STATUS`. -/
def Obligations.StepKeepsInvariant : Prop :=
  ∀ s t : State, s.Inv → step s = .next t → t.Inv

/-- 10_state.md R16: at most one of the flags is 1, `ECODE` is 0 without `ERROR`, the reserved bits read 0, in every state that
meets the invariant. -/
def Obligations.StatusFieldsAreExclusive : Prop :=
  ∀ s : State, s.Inv →
    let w := s.get .status
    (statusBusyBit w && statusDoneBit w) = false ∧ (statusBusyBit w && statusErrorBit w) = false ∧
    (statusDoneBit w && statusErrorBit w) = false ∧ (statusErrorBit w = false → statusEcode w = 0) ∧
    w.extractLsb' 3 5 = 0 ∧ w.extractLsb' 12 20 = 0

/-- 10_state.md R14, R25: while a command runs, no turn but a reset changes a register other than `STATUS` and `QM_RESULT`. -/
def Obligations.RunningCommandFreezesRegisters : Prop :=
  ∀ s t : State, s.busy = true → s.nextTurn ≠ .reset → step s = .next t →
    ∀ r, r ≠ .status → r ≠ .qmResult → t.get r = s.get r

/-- 30_encoding.md R71, 60_exceptions.md R179, R180: nothing but a host write to `CMD` starts a command. -/
def Obligations.OnlyCmdWriteStartsCommand : Prop :=
  ∀ s t : State, s.busy = false → step s = .next t → t.busy = true →
    ∃ w, s.nextTurn = .hostWrite 32 (s.qceBase + 0x00) w ∧ t.get .cmd = w ∧ t.get .status = 0x00000001

/-- 70_reset_and_hazards.md R201, 60_exceptions.md R160, R164: the engine's turn ends the running command, by completion or by one
of the two rejections this hardware makes. -/
def Obligations.EngineTurnEndsCommand : Prop :=
  ∀ s t : State, s.busy = true → s.nextTurn = .engine → step s = .next t →
    t.busy = false ∧
      (t.get .status = 0x00000002 ∨ t.get .status = 0x00000104 ∨ t.get .status = 0x00000304) ∧
      (t.get .status ≠ 0x00000002 → (∀ a, t.mem.read a = s.mem.read a) ∧ ∀ r, r ≠ .status → t.get r = s.get r)

/-- 10_state.md R25, 20_memory.md R50, 70_reset_and_hazards.md R191: the data memory changes only by a byte write of another agent
or inside region `OUT` of a running command, and the platform's `MAPPED` and `QCE_BASE` never. -/
def Obligations.MemoryChangesOnlyInsideOutput : Prop :=
  ∀ s t : State, step s = .next t →
    t.mapped = s.mapped ∧ t.qceBase = s.qceBase ∧
    ∀ a, t.mem.read a ≠ s.mem.read a →
      (∃ addr b, s.nextTurn = .memWrite addr b ∧ addr.toNat = a) ∨ (s.busy = true ∧ ¬s.outsideOut a)
end

