-- ==== Sys2Proof/Laws/Memory.lean ====
section
/-! SUPPORT. The laws of the data memory: read after write, canonical form, ranges of stores; and of the regions of the data
space: what `regionMapped` says of every byte. -/

namespace Sys2Proof.Machine

@[simp] theorem Memory.read_nil (a : Nat) : Memory.read [] a = unlistedByte := rfl

theorem Memory.read_erase (m : Memory) (a a' : Nat) :
    (m.erase a).read a' = if a' = a then unlistedByte else m.read a' := by
  induction m with
  | nil => simp [Memory.erase]
  | cons p m ih =>
    obtain ⟨k, v⟩ := p
    simp only [Memory.erase, Memory.read]
    by_cases hk : k = a
    · rw [if_pos hk, ih]
      by_cases ha : a' = a
      · simp [ha]
      · simp [ha, hk, Ne.symm ha]
    · rw [if_neg hk, Memory.read, ih]
      by_cases ha : a' = a
      · simp [ha, hk]
      · simp [ha]

theorem Memory.read_insert (m : Memory) (a a' : Nat) (b : Byte) (hm : ∀ p ∈ m, p.1 ≠ a) :
    (m.insert a b).read a' = if a' = a then b else m.read a' := by
  induction m with
  | nil => simp [Memory.insert, Memory.read, eq_comm]
  | cons p m ih =>
    obtain ⟨k, v⟩ := p
    have hk : k ≠ a := hm (k, v) (by simp)
    have ih := ih fun q hq => hm q (by simp [hq])
    simp only [Memory.insert]
    split
    · simp only [Memory.read, ih]
      split
      · next h => subst h; simp [hk]
      · rfl
    · simp only [Memory.read]
      by_cases h : a' = a
      · simp [h]
      · simp [h, Ne.symm h]

theorem Memory.erase_keys (m : Memory) (a : Nat) : ∀ p ∈ m.erase a, p.1 ≠ a := by
  induction m with
  | nil => simp [Memory.erase]
  | cons p m ih =>
    obtain ⟨k, v⟩ := p
    simp only [Memory.erase]
    split
    · exact ih
    · next h =>
      intro q hq
      rcases List.mem_cons.1 hq with rfl | hq
      · exact h
      · exact ih q hq

/-- The one law of a store: the stored byte is read back, every other byte reads as before. -/
theorem Memory.read_write (m : Memory) (a a' : Nat) (b : Byte) :
    (m.write a b).read a' = if a' = a then b else m.read a' := by
  unfold Memory.write
  split
  · next h => rw [Memory.read_erase, h]
  · next h =>
    rw [Memory.read_insert _ _ _ _ (Memory.erase_keys m a), Memory.read_erase]
    by_cases ha : a' = a <;> simp [ha]

theorem Memory.wfFrom_mono (m : Memory) (lo lo' : Nat) (h : lo' ≤ lo) (hm : m.wfFrom lo = true) :
    m.wfFrom lo' = true := by
  cases m with
  | nil => rfl
  | cons p m =>
    simp only [Memory.wfFrom, Bool.and_eq_true, decide_eq_true_eq] at hm ⊢
    exact ⟨⟨⟨by omega, hm.1.1.2⟩, hm.1.2⟩, hm.2⟩

theorem Memory.wfFrom_erase (m : Memory) (lo a : Nat) (hm : m.wfFrom lo = true) : (m.erase a).wfFrom lo = true := by
  induction m generalizing lo with
  | nil => rfl
  | cons p m ih =>
    obtain ⟨k, v⟩ := p
    simp only [Memory.wfFrom, Bool.and_eq_true, decide_eq_true_eq] at hm
    simp only [Memory.erase]
    split
    · exact Memory.wfFrom_mono _ (k + 1) lo (by omega) (ih _ hm.2)
    · simp only [Memory.wfFrom, Bool.and_eq_true, decide_eq_true_eq]
      exact ⟨hm.1, ih _ hm.2⟩

theorem Memory.wfFrom_insert (m : Memory) (lo a : Nat) (b : Byte) (hm : m.wfFrom lo = true) (hlo : lo ≤ a)
    (ha : a < 2 ^ 32) (hb : b ≠ unlistedByte) (hk : ∀ p ∈ m, p.1 ≠ a) : (m.insert a b).wfFrom lo = true := by
  induction m generalizing lo with
  | nil => simpa [Memory.insert, Memory.wfFrom, hlo, hb] using ha
  | cons p m ih =>
    obtain ⟨k, v⟩ := p
    have hka : k ≠ a := hk (k, v) (by simp)
    simp only [Memory.wfFrom, Bool.and_eq_true, decide_eq_true_eq] at hm
    simp only [Memory.insert]
    split
    · next h =>
      simp only [Memory.wfFrom, Bool.and_eq_true, decide_eq_true_eq]
      exact ⟨hm.1, ih _ hm.2 (by omega) fun q hq => hk q (by simp [hq])⟩
    · next h =>
      simp only [Memory.wfFrom, Bool.and_eq_true, decide_eq_true_eq]
      exact ⟨⟨⟨hlo, ha⟩, hb⟩, ⟨⟨by omega, hm.1.1.2⟩, hm.1.2⟩, hm.2⟩

/-- A store inside the data space keeps the canonical form. -/
theorem Memory.wf_write (m : Memory) (a : Nat) (b : Byte) (hm : m.wf = true) (ha : a < 2 ^ 32) :
    (m.write a b).wf = true := by
  unfold Memory.write Memory.wf
  split
  · exact Memory.wfFrom_erase _ _ _ hm
  · next h => exact Memory.wfFrom_insert _ _ _ _ (Memory.wfFrom_erase _ _ _ hm) (by omega) ha h (Memory.erase_keys m a)

/-- What a range of stores leaves at every address. -/
theorem Memory.read_storeRange (m : Memory) (base n : Nat) (f : Nat → Byte) (a : Nat) :
    (m.storeRange base n f).read a = if base ≤ a ∧ a < base + n then f (a - base) else m.read a := by
  induction n with
  | zero => simp only [Memory.storeRange]; rw [if_neg (by omega)]
  | succ n ih =>
    simp only [Memory.storeRange, Memory.read_write, ih]
    by_cases h : a = base + n
    · rw [if_pos h, if_pos (by omega), h]; congr 1; omega
    · rw [if_neg h]
      by_cases h' : base ≤ a ∧ a < base + n
      · rw [if_pos h', if_pos (by omega)]
      · rw [if_neg h', if_neg (by omega)]

/-- A range of stores inside the data space keeps the canonical form. -/
theorem Memory.wf_storeRange (m : Memory) (base n : Nat) (f : Nat → Byte) (hm : m.wf = true) (h : base + n ≤ 2 ^ 32) :
    (m.storeRange base n f).wf = true := by
  induction n with
  | zero => exact hm
  | succ n ih => exact Memory.wf_write _ _ _ (ih (by omega)) (by omega)

/-- Two memories that agree on the bytes of an element give the same element. -/
theorem Memory.readLE_congr (m m' : Memory) (a n : Nat) (h : ∀ k, k < n → m.read (a + k) = m'.read (a + k)) :
    m.readLE a n = m'.readLE a n := by
  induction n generalizing a with
  | zero => rfl
  | succ n ih =>
    simp only [Memory.readLE]
    rw [show m.read a = m'.read a from h 0 (by omega), ih (a + 1) fun k hk => by
      have := h (k + 1) (by omega); rwa [show a + (k + 1) = a + 1 + k by omega] at this]

theorem Region.contains_iff (r : Region) (a : Nat) : r.contains a = true ↔ r.base ≤ a ∧ a < r.base + r.size := by
  simp [Region.contains]

/-- The bytes of `r.minus m` are those of `r` outside `m`. -/
theorem Region.mem_minus (r m : Region) (a : Nat) :
    (∃ q ∈ r.minus m, q.contains a = true) ↔ r.contains a = true ∧ ¬m.contains a = true := by
  simp only [Region.minus, Region.contains_iff, List.mem_filter, List.mem_cons, List.not_mem_nil, or_false, decide_eq_true_eq, ne_eq]
  constructor
  · rintro ⟨q, ⟨rfl | rfl, -⟩, h⟩ <;> simp only [] at h <;> omega
  · rintro ⟨h, h'⟩
    by_cases ha : a < m.base
    · exact ⟨_, ⟨.inl rfl, by simp only []; omega⟩, by simp only []; omega⟩
    · exact ⟨_, ⟨.inr rfl, by simp only []; omega⟩, by simp only []; omega⟩

theorem mem_uncovered (rs ms : List Region) (a : Nat) :
    (∃ q ∈ uncovered rs ms, q.contains a = true) ↔
      (∃ r ∈ rs, r.contains a = true) ∧ ∀ m ∈ ms, ¬m.contains a = true := by
  induction ms generalizing rs with
  | nil => simp [uncovered]
  | cons m ms ih =>
    simp only [uncovered, ih, List.mem_flatMap, List.forall_mem_cons]
    constructor
    · rintro ⟨⟨q, ⟨r, hr, hq⟩, ha⟩, h⟩
      have := (r.mem_minus m a).1 ⟨q, hq, ha⟩
      exact ⟨⟨r, hr, this.1⟩, this.2, h⟩
    · rintro ⟨⟨r, hr, ha⟩, hm, h⟩
      obtain ⟨q, hq, hqa⟩ := (r.mem_minus m a).2 ⟨ha, hm⟩
      exact ⟨⟨q, ⟨r, hr, hq⟩, hqa⟩, h⟩

/-- `regionMapped` says of every byte of the range that it is mapped, and that the range does not wrap. -/
theorem State.regionMapped_iff (s : State) (r : Region) :
    s.regionMapped r = true ↔
      r.size = 0 ∨ (r.base + r.size ≤ 2 ^ 32 ∧
        ∀ a, r.base ≤ a → a < r.base + r.size → ∃ q ∈ s.mapped, q.contains a = true) := by
  simp only [State.regionMapped, Bool.or_eq_true, Bool.and_eq_true, decide_eq_true_eq, List.all_eq_true]
  refine or_congr Iff.rfl (and_congr Iff.rfl ⟨fun h a h1 h2 => ?_, fun h q hq => ?_⟩)
  · by_contra hc
    obtain ⟨q, hq, ha⟩ := (mem_uncovered [r] s.mapped a).2
      ⟨⟨r, by simp, r.contains_iff a |>.2 ⟨h1, h2⟩⟩, fun m hm hma => hc ⟨m, hm, hma⟩⟩
    have := h q hq
    rw [Region.contains_iff] at ha
    omega
  · by_contra hc
    have hq0 : q.contains q.base = true := (q.contains_iff _).2 ⟨le_refl _, by omega⟩
    obtain ⟨⟨r', hr', ha⟩, hm⟩ := (mem_uncovered [r] s.mapped q.base).1 ⟨q, hq, hq0⟩
    rw [List.mem_singleton] at hr'
    subst hr'
    rw [Region.contains_iff] at ha
    obtain ⟨m, hm', hma⟩ := h q.base ha.1 ha.2
    exact hm m hm' hma

end Sys2Proof.Machine
end

