-- ==== Sys2Proof/Laws/State.lean ====
section
/-! SUPPORT. The small lemmas of the state's accessors and updates: one per field per update, so that no proof unfolds a
record update. -/

namespace Sys2Proof.Machine

theorem Window.get_set (w : Window) (r r' : Reg) (v : Word) :
    (w.set r v).get r' = if r' = r then v else w.get r' := by
  cases r <;> cases r' <;> rfl

theorem State.get_set (s : State) (r r' : Reg) (v : Word) :
    (s.set r v).get r' = if r' = r then v else s.get r' := Window.get_set s.win r r' v

@[simp] theorem State.get_set_self (s : State) (r : Reg) (v : Word) : (s.set r v).get r = v := by
  simp [State.get_set]

theorem State.get_set_ne (s : State) (r r' : Reg) (v : Word) (h : r' ≠ r) : (s.set r v).get r' = s.get r' := by
  simp [State.get_set, h]

@[simp] theorem State.set_mem (s : State) (r : Reg) (v : Word) : (s.set r v).mem = s.mem := rfl
@[simp] theorem State.set_mapped (s : State) (r : Reg) (v : Word) : (s.set r v).mapped = s.mapped := rfl
@[simp] theorem State.set_qceBase (s : State) (r : Reg) (v : Word) : (s.set r v).qceBase = s.qceBase := rfl
@[simp] theorem State.set_agenda (s : State) (r : Reg) (v : Word) : (s.set r v).agenda = s.agenda := rfl
@[simp] theorem State.set_readData (s : State) (r : Reg) (v : Word) : (s.set r v).readData = s.readData := rfl
@[simp] theorem State.set_foreign (s : State) (r : Reg) (v : Word) : (s.set r v).foreign = s.foreign := rfl
@[simp] theorem State.set_fresh (s : State) (r : Reg) (v : Word) : (s.set r v).fresh = s.fresh := rfl

/-- A read of a register is written `s.get r`, whatever the other fields are. -/
@[simp] theorem State.win_get (s : State) (r : Reg) : s.win.get r = s.get r := rfl

@[simp] theorem State.get_mk (win : Window) (mem : Memory) (mapped : List Region) (qceBase : Nat) (agenda : List Turn)
    (readData : Word) (foreign : List Nat) (fresh : Nat) (r : Reg) :
    State.get { win, mem, mapped, qceBase, agenda, readData, foreign, fresh } r = win.get r := rfl

@[simp] theorem State.popTurn_win (s : State) : s.popTurn.win = s.win := rfl
@[simp] theorem State.popTurn_get (s : State) (r : Reg) : s.popTurn.get r = s.get r := rfl
@[simp] theorem State.popTurn_mem (s : State) : s.popTurn.mem = s.mem := rfl
@[simp] theorem State.popTurn_mapped (s : State) : s.popTurn.mapped = s.mapped := rfl
@[simp] theorem State.popTurn_qceBase (s : State) : s.popTurn.qceBase = s.qceBase := rfl
@[simp] theorem State.popTurn_readData (s : State) : s.popTurn.readData = s.readData := rfl
@[simp] theorem State.popTurn_foreign (s : State) : s.popTurn.foreign = s.foreign := rfl
@[simp] theorem State.popTurn_fresh (s : State) : s.popTurn.fresh = s.fresh := rfl
@[simp] theorem State.popTurn_busy (s : State) : s.popTurn.busy = s.busy := rfl

theorem State.launch_get (s : State) (w : Word) (r : Reg) :
    (s.launch w).get r = if r = .status then statusBusy else if r = .cmd then w else s.get r := by
  simp [State.launch, State.get_set]

@[simp] theorem State.launch_mem (s : State) (w : Word) : (s.launch w).mem = s.mem := rfl
@[simp] theorem State.launch_mapped (s : State) (w : Word) : (s.launch w).mapped = s.mapped := rfl
@[simp] theorem State.launch_qceBase (s : State) (w : Word) : (s.launch w).qceBase = s.qceBase := rfl
@[simp] theorem State.launch_agenda (s : State) (w : Word) : (s.launch w).agenda = s.agenda := rfl
@[simp] theorem State.launch_foreign (s : State) (w : Word) : (s.launch w).foreign = [] := rfl
@[simp] theorem State.launch_fresh (s : State) (w : Word) : (s.launch w).fresh = s.fresh := rfl
@[simp] theorem State.launch_readData (s : State) (w : Word) : (s.launch w).readData = s.readData := rfl

theorem State.complete_get (s : State) (r : Reg) :
    s.complete.get r = if r = .status then statusDone else s.get r := by
  simp [State.complete, State.get_set]

@[simp] theorem State.complete_mem (s : State) : s.complete.mem = s.mem := rfl
@[simp] theorem State.complete_mapped (s : State) : s.complete.mapped = s.mapped := rfl
@[simp] theorem State.complete_qceBase (s : State) : s.complete.qceBase = s.qceBase := rfl
@[simp] theorem State.complete_agenda (s : State) : s.complete.agenda = s.agenda := rfl
@[simp] theorem State.complete_foreign (s : State) : s.complete.foreign = [] := rfl
@[simp] theorem State.complete_fresh (s : State) : s.complete.fresh = s.fresh := rfl
@[simp] theorem State.complete_readData (s : State) : s.complete.readData = s.readData := rfl

theorem State.raise_get (s : State) (e : ErrorCode) (r : Reg) :
    (s.raise e).get r = if r = .status then statusError e else s.get r := by
  simp [State.raise, State.get_set]

@[simp] theorem State.raise_mem (s : State) (e : ErrorCode) : (s.raise e).mem = s.mem := rfl
@[simp] theorem State.raise_mapped (s : State) (e : ErrorCode) : (s.raise e).mapped = s.mapped := rfl
@[simp] theorem State.raise_qceBase (s : State) (e : ErrorCode) : (s.raise e).qceBase = s.qceBase := rfl
@[simp] theorem State.raise_agenda (s : State) (e : ErrorCode) : (s.raise e).agenda = s.agenda := rfl
@[simp] theorem State.raise_foreign (s : State) (e : ErrorCode) : (s.raise e).foreign = [] := rfl
@[simp] theorem State.raise_fresh (s : State) (e : ErrorCode) : (s.raise e).fresh = s.fresh := rfl
@[simp] theorem State.raise_readData (s : State) (e : ErrorCode) : (s.raise e).readData = s.readData := rfl

theorem State.storeQmul_get_ne (s : State) (r : Reg) (h : r ≠ .qmResult) : s.storeQmul.get r = s.get r :=
  s.get_set_ne .qmResult r _ h

@[simp] theorem State.storeQmul_mem (s : State) : s.storeQmul.mem = s.mem := rfl
@[simp] theorem State.storeQmul_mapped (s : State) : s.storeQmul.mapped = s.mapped := rfl
@[simp] theorem State.storeQmul_qceBase (s : State) : s.storeQmul.qceBase = s.qceBase := rfl
@[simp] theorem State.storeQmul_agenda (s : State) : s.storeQmul.agenda = s.agenda := rfl
@[simp] theorem State.storeQmul_foreign (s : State) : s.storeQmul.foreign = s.foreign := rfl
@[simp] theorem State.storeQmul_fresh (s : State) : s.storeQmul.fresh = s.fresh := rfl
@[simp] theorem State.storeQmul_readData (s : State) : s.storeQmul.readData = s.readData := rfl

@[simp] theorem State.applyReset_win (s : State) : s.applyReset.win = Window.reset := rfl
@[simp] theorem State.applyReset_mem (s : State) : s.applyReset.mem = s.mem := rfl
@[simp] theorem State.applyReset_mapped (s : State) : s.applyReset.mapped = s.mapped := rfl
@[simp] theorem State.applyReset_qceBase (s : State) : s.applyReset.qceBase = s.qceBase := rfl
@[simp] theorem State.applyReset_agenda (s : State) : s.applyReset.agenda = s.agenda := rfl
@[simp] theorem State.applyReset_readData (s : State) : s.applyReset.readData = s.readData := rfl
@[simp] theorem State.applyReset_foreign (s : State) : s.applyReset.foreign = [] := rfl
@[simp] theorem State.applyReset_fresh (s : State) : s.applyReset.fresh = s.fresh + s.freeDraws := rfl

/-- Reset spends every free value the abandoned command can have drawn: that of a QMUL, and that of each output element. -/
theorem State.applyReset_spends (s : State) :
    s.fresh < s.applyReset.fresh ∧ ∀ k, k < s.outDims.flatSize → s.fresh + k < s.applyReset.fresh := by
  simp only [State.applyReset_fresh, State.freeDraws]
  refine ⟨?_, fun k hk => ?_⟩ <;> omega

theorem Reg.ofOffset_offset (r : Reg) : Reg.ofOffset r.offset = some r := by cases r <;> rfl

theorem Reg.offset_of_ofOffset (off : Nat) (r : Reg) (h : Reg.ofOffset off = some r) : r.offset = off := by
  have := List.find?_some h
  simpa using this

/-- No launch ever exceeds the scratch ceiling, whatever the platform's `SCRATCH_MAX` (60_exceptions.md R164). -/
@[simp] theorem scratchExceeded_false : scratchExceeded = false := by
  simp [scratchExceeded, Config.scratchBytes]

/-- An outcome that is a next state has one. -/
theorem exists_of_isNext (o : Host.Outcome State Fault Refusal) (h : isNext o = true) : ∃ t, o = .next t := by
  cases o with
  | next t => exact ⟨t, rfl⟩
  | fault r => cases h
  | refused r => cases h

end Sys2Proof.Machine
end

