-- ==== Sys2Proof/Laws/Exec.lean ====
section
/-! SUPPORT. What the shared operations can do, said once: the walk over the output, one command, one turn of the engine.
The provers cite these and never unfold the machine. -/

namespace Sys2Proof.Machine

/-- A validated CONV or DWCONV whose regions are mapped completes. -/
theorem State.runTensor_of_mapped (s : State) (hasBias : Bool) (filtSize : Nat) (value : Nat → Byte)
    (h : s.buffersMapped hasBias filtSize = true) :
    s.runTensor hasBias filtSize value = .next
      { s.complete with
        mem := s.mem.storeRange (s.outAddr 0) s.outDims.flatSize (s.storedByte hasBias filtSize value)
        fresh := s.fresh + s.outDims.flatSize } := by
  simp [State.runTensor, h]

/-- A validated CONV or DWCONV whose regions are not all mapped has no meaning. -/
theorem State.runTensor_of_not_mapped (s : State) (hasBias : Bool) (filtSize : Nat) (value : Nat → Byte)
    (h : s.buffersMapped hasBias filtSize = false) : s.runTensor hasBias filtSize value = .refused .buffersNotMapped := by
  simp [State.runTensor, h]

/-- If the walk over the output answers a next state, it is the completed one. -/
theorem State.runTensor_next (s t : State) (hasBias : Bool) (filtSize : Nat) (value : Nat → Byte)
    (h : s.runTensor hasBias filtSize value = .next t) :
    s.buffersMapped hasBias filtSize = true ∧
      t = { s.complete with
            mem := s.mem.storeRange (s.outAddr 0) s.outDims.flatSize (s.storedByte hasBias filtSize value)
            fresh := s.fresh + s.outDims.flatSize } := by
  cases hm : s.buffersMapped hasBias filtSize
  · simp [State.runTensor, hm] at h
  · rw [s.runTensor_of_mapped _ _ _ hm] at h
    exact ⟨rfl, by injection h with h; exact h.symm⟩

/-- If an early store answers a next state, it is the same state or the one with that byte stored. -/
theorem State.runTensorStore_next (s t : State) (hasBias : Bool) (filtSize k : Nat) (value : Nat → Byte)
    (h : s.runTensorStore hasBias filtSize value k = .next t) :
    t = s ∨ (k < s.outDims.flatSize ∧ s.buffersMapped hasBias filtSize = true ∧
      t = { s with mem := s.mem.write (s.outAddr k) (s.storedByte hasBias filtSize value k) }) := by
  simp only [State.runTensorStore, scratchExceeded_false, Bool.false_eq_true, if_false] at h
  split at h
  · split at h <;> injection h with h
    · exact .inr ⟨‹_›, ‹_›, h.symm⟩
    · exact .inl h.symm
  · cases h

/-- If CONV answers a next state, it was rejected or it completed. -/
theorem execConv_next (hasBias usgn : Bool) (s t : State) (h : execConv hasBias usgn s = .next t) :
    (s.convShapesOk hasBias = false ∧ t = s.raise .eShape) ∨
    (s.convShapesOk hasBias = true ∧ s.buffersMapped hasBias s.convFiltSize = true ∧
      t = { s.complete with
            mem := s.mem.storeRange (s.outAddr 0) s.outDims.flatSize
              (s.storedByte hasBias s.convFiltSize (s.convByte hasBias usgn))
            fresh := s.fresh + s.outDims.flatSize }) := by
  unfold execConv at h
  cases hs : s.convShapesOk hasBias <;> simp only [hs, if_true, if_false, Bool.false_eq_true] at h
  · injection h with h; exact .inl ⟨rfl, h.symm⟩
  · exact .inr ⟨rfl, s.runTensor_next t _ _ _ h⟩

/-- If DWCONV answers a next state, it was rejected or it completed. -/
theorem execDwconv_next (hasBias usgn : Bool) (s t : State) (h : execDwconv hasBias usgn s = .next t) :
    (s.dwShapesOk hasBias = false ∧ t = s.raise .eShape) ∨
    (s.dwShapesOk hasBias = true ∧ s.buffersMapped hasBias s.dwFiltSize = true ∧
      t = { s.complete with
            mem := s.mem.storeRange (s.outAddr 0) s.outDims.flatSize
              (s.storedByte hasBias s.dwFiltSize (s.dwByte hasBias usgn))
            fresh := s.fresh + s.outDims.flatSize }) := by
  unfold execDwconv at h
  cases hs : s.dwShapesOk hasBias <;> simp only [hs, if_true, if_false, Bool.false_eq_true] at h
  · injection h with h; exact .inl ⟨rfl, h.symm⟩
  · exact .inr ⟨rfl, s.runTensor_next t _ _ _ h⟩

/-- Everything a command can do when it answers a next state. -/
theorem exec_next (i : Instr) (s t : State) (h : exec i s = .next t) :
    (s.shapesOk i = false ∧ t = s.raise .eShape) ∨
    (i = .qmul ∧ t = { s.storeQmul.complete with fresh := s.fresh + 1 }) ∨
    (i ≠ .qmul ∧ s.shapesOk i = true ∧ ∃ f : Nat → Byte,
      t = { s.complete with
            mem := s.mem.storeRange (s.outAddr 0) s.outDims.flatSize f
            fresh := s.fresh + s.outDims.flatSize }) := by
  cases i with
  | conv hasBias usgn =>
    rcases execConv_next hasBias usgn s t h with ⟨h1, h2⟩ | ⟨h1, -, h2⟩
    · exact .inl ⟨h1, h2⟩
    · exact .inr (.inr ⟨by simp, h1, _, h2⟩)
  | dwconv hasBias usgn =>
    rcases execDwconv_next hasBias usgn s t h with ⟨h1, h2⟩ | ⟨h1, -, h2⟩
    · exact .inl ⟨h1, h2⟩
    · exact .inr (.inr ⟨by simp, h1, _, h2⟩)
  | qmul =>
    have h : execQmul s = .next t := h
    unfold execQmul at h
    injection h with h
    exact .inr (.inl ⟨rfl, h.symm⟩)

/-- The regions of a completed CONV or DWCONV do not wrap: its output lies inside the data space. -/
theorem State.out_le_of_mapped (s : State) (hasBias : Bool) (filtSize : Nat) (h : s.buffersMapped hasBias filtSize = true) :
    s.outDims.flatSize = 0 ∨ s.outAddr 0 + s.outDims.flatSize ≤ 2 ^ 32 := by
  simp only [State.buffersMapped, List.all_cons, Bool.and_eq_true] at h
  rcases (s.regionMapped_iff s.outRegion).1 h.1 with h | h
  · exact .inl h
  · exact .inr h.1

/-- Everything the engine's turn can do when it answers a next state. -/
theorem State.engineTurn_next (s t : State) (h : s.engineTurn = .next t) :
    (s.busy = false ∧ t = s) ∨
    (s.busy = true ∧ (∃ why, decode (s.get .cmd) = .illegal why) ∧ t = s.raise .eCmd) ∨
    (s.busy = true ∧ ∃ i, decode (s.get .cmd) = .instr i ∧ exec i s = .next t) := by
  unfold State.engineTurn at h
  cases hb : s.busy <;> simp only [hb, if_true, if_false, Bool.false_eq_true] at h
  · injection h with h; exact .inl ⟨rfl, h.symm⟩
  · cases hd : decode (s.get .cmd) <;> simp only [hd] at h
    · exact .inr (.inr ⟨rfl, _, rfl, h⟩)
    · injection h with h; exact .inr (.inl ⟨rfl, ⟨_, rfl⟩, h.symm⟩)

/-- An early store that answers a next state gives back the same state, or the one with that byte stored; the second only for
a command whose regions are mapped, so inside the data space. -/
theorem State.runTensorStore_next_lt (s t : State) (hasBias : Bool) (filtSize k : Nat) (value : Nat → Byte)
    (h : s.runTensorStore hasBias filtSize value k = .next t) :
    t = s ∨ (k < s.outDims.flatSize ∧ s.outAddr k < 2 ^ 32 ∧
      t = { s with mem := s.mem.write (s.outAddr k) (s.storedByte hasBias filtSize value k) }) := by
  rcases s.runTensorStore_next t _ _ _ _ h with h | ⟨h1, h2, h3⟩
  · exact .inl h
  · refine .inr ⟨h1, ?_, h3⟩
    rcases s.out_le_of_mapped _ _ h2 with h | h <;> simp only [State.outAddr] at h ⊢ <;> omega

/-- Everything an early store can do when it answers a next state: nothing, the write of `QM_RESULT` by a running QMUL, or
one byte of `OUT` by a running CONV or DWCONV that has passed validation. -/
theorem State.engineStore_next (s t : State) (k : Nat) (h : s.engineStore k = .next t) :
    t = s ∨ (s.busy = true ∧ decode (s.get .cmd) = .instr .qmul ∧ t = s.storeQmul) ∨
    (s.busy = true ∧ (∃ i, i ≠ .qmul ∧ decode (s.get .cmd) = .instr i ∧ s.shapesOk i = true) ∧ k < s.outDims.flatSize ∧
      s.outAddr k < 2 ^ 32 ∧ ∃ b, t = { s with mem := s.mem.write (s.outAddr k) b }) := by
  unfold State.engineStore at h
  cases hb : s.busy <;> simp only [hb, if_true, if_false, Bool.false_eq_true] at h
  · injection h with h; exact .inl h.symm
  · cases hd : decode (s.get .cmd) with
    | illegal why => simp only [hd] at h; injection h with h; exact .inl h.symm
    | instr i =>
      simp only [hd] at h
      cases i with
      | conv hasBias usgn =>
        simp only [storeConv] at h
        split at h
        · next hs =>
          rcases s.runTensorStore_next_lt t _ _ _ _ h with h | ⟨h1, h2, h3⟩
          · exact .inl h
          · exact .inr (.inr ⟨rfl, ⟨_, by simp, rfl, hs⟩, h1, h2, _, h3⟩)
        · injection h with h; exact .inl h.symm
      | dwconv hasBias usgn =>
        simp only [storeDwconv] at h
        split at h
        · next hs =>
          rcases s.runTensorStore_next_lt t _ _ _ _ h with h | ⟨h1, h2, h3⟩
          · exact .inl h
          · exact .inr (.inr ⟨rfl, ⟨_, by simp, rfl, hs⟩, h1, h2, _, h3⟩)
        · injection h with h; exact .inl h.symm
      | qmul => injection h with h; exact .inr (.inl ⟨rfl, rfl, h.symm⟩)

/-- A host access at an offset of the window is one at that offset. -/
@[simp] theorem State.windowOffset_base (s : State) (offset : Nat) : s.windowOffset (s.qceBase + offset) = offset := by
  simp [State.windowOffset]

/-- Which host accesses reach the window. -/
theorem State.hostAccessOk_iff (s : State) (width addr : Nat) :
    s.hostAccessOk width addr = true ↔
      width = 32 ∧ ∃ offset, addr = s.qceBase + offset ∧ offset % 4 = 0 ∧ offset < 0x100 := by
  have key : s.hostAccessOk width addr = true ↔
      s.qceBase ≤ addr ∧ width = 32 ∧ (addr - s.qceBase) % 4 = 0 ∧ addr - s.qceBase < 0x100 := by
    simp only [State.hostAccessOk, windowAccessOk, Bool.and_eq_true, decide_eq_true_eq, and_assoc]
    exact Iff.rfl
  rw [key]
  constructor
  · rintro ⟨h, h1, h2, h3⟩; exact ⟨h1, addr - s.qceBase, by omega, h2, h3⟩
  · rintro ⟨h1, o, rfl, h2, h3⟩; exact ⟨by omega, h1, by omega, by omega⟩

/-- What a host write of the window can do when it answers a next state. -/
theorem State.hostWrite_next (s t : State) (width addr : Nat) (v : Word) (h : s.hostWrite width addr v = .next t) :
    s.hostAccessOk width addr = true ∧
    (t = s ∨ (s.busy = false ∧ addr = s.qceBase ∧ t = s.launch v) ∨
      (s.busy = false ∧ ∃ r : Reg, addr = s.qceBase + r.offset ∧ r ≠ .cmd ∧ r.readOnly = false ∧ t = s.set r v)) := by
  unfold State.hostWrite at h
  split at h
  · next hw =>
    refine ⟨hw, ?_⟩
    obtain ⟨-, offset, rfl, -, -⟩ := (s.hostAccessOk_iff _ _).1 hw
    rw [s.windowOffset_base] at h
    injection h with h
    cases hb : s.busy <;> simp only [hb, if_true, if_false, Bool.false_eq_true] at h
    · unfold State.writeOffset at h
      split at h
      · exact .inl h.symm
      · next r hr =>
        have ho := Reg.offset_of_ofOffset _ _ hr
        split at h
        · next hc => subst hc; exact .inr (.inl ⟨rfl, by rw [← ho]; rfl, h.symm⟩)
        · split at h
          · exact .inl h.symm
          · next hc hro => exact .inr (.inr ⟨rfl, r, by rw [ho], hc, by simpa using hro, h.symm⟩)
    · exact .inl h.symm
  · cases h

/-- What a host read of the window can do when it answers a next state: only `readData` changes. -/
theorem State.hostRead_next (s t : State) (width addr : Nat) (h : s.hostRead width addr = .next t) :
    s.hostAccessOk width addr = true ∧ t = { s with readData := s.readOffset (s.windowOffset addr) } := by
  unfold State.hostRead at h
  split at h
  · next hw => injection h with h; exact ⟨hw, h.symm⟩
  · cases h

/-- What a byte write by another agent can do when it answers a next state. -/
theorem State.foreignWrite_next (s t : State) (addr : Word) (b : Byte) (h : s.foreignWrite addr b = .next t) :
    s.byteMapped addr.toNat = true ∧
    t = { s with mem := s.mem.write addr.toNat b
                 foreign := if s.busy then addr.toNat :: s.foreign else s.foreign } := by
  unfold State.foreignWrite at h
  split at h
  · next hw => injection h with h; exact ⟨hw, h.symm⟩
  · cases h

/-- What a byte read by the host can do when it answers a next state. -/
theorem State.foreignRead_next (s t : State) (addr : Word) (h : s.foreignRead addr = .next t) :
    s.byteMapped addr.toNat = true ∧ t = { s with readData := (s.mem.read addr.toNat).setWidth 32 } := by
  unfold State.foreignRead at h
  split at h
  · next hw => injection h with h; exact ⟨hw, h.symm⟩
  · cases h

end Sys2Proof.Machine
end

