-- ==== Sys2Proof/Laws/Index.lean ====
section
/-! SUPPORT. The row-major index (00_scope.md R7) and the coordinates of an output element are inverse to each other, and an
index inside a shape is below its flat size. -/

namespace Sys2Proof.Machine

theorem Dims.index_lt (d : Dims) (i0 i1 i2 i3 : Nat) (h0 : i0 < d.d0) (h1 : i1 < d.d1) (h2 : i2 < d.d2) (h3 : i3 < d.d3) :
    d.index i0 i1 i2 i3 < d.flatSize := by
  have step : ∀ p i n d : Nat, p < n → i < d → p * d + i < n * d := fun p i n d hp hi => by
    calc p * d + i < p * d + d := by omega
      _ = (p + 1) * d := by ring
      _ ≤ n * d := Nat.mul_le_mul_right _ hp
  exact step _ _ _ _ (step _ _ _ _ (step _ _ _ _ h0 h1) h2) h3

theorem Dims.coords_index (d : Dims) (i0 i1 i2 i3 : Nat) (h1 : i1 < d.d1) (h2 : i2 < d.d2) (h3 : i3 < d.d3) :
    d.coords (d.index i0 i1 i2 i3) = (i0, i1, i2, i3) := by
  have divs : ∀ p i n : Nat, i < n → (p * n + i) / n = p := fun p i n h => by
    rw [mul_comm, Nat.mul_add_div (by omega), Nat.div_eq_of_lt h, add_zero]
  have mods : ∀ p i n : Nat, i < n → (p * n + i) % n = i := fun p i n h => by
    rw [mul_comm, Nat.mul_add_mod, Nat.mod_eq_of_lt h]
  simp only [Dims.coords, Dims.index, ← Nat.div_div_eq_div_mul]
  rw [divs _ _ _ h3, divs _ _ _ h2, divs _ _ _ h1, mods _ _ _ h3, mods _ _ _ h2, mods _ _ _ h1]

theorem Dims.index_coords (d : Dims) (k : Nat) (b oy ox oc : Nat) (h : d.coords k = (b, oy, ox, oc)) :
    d.index b oy ox oc = k := by
  simp only [Dims.coords, Prod.mk.injEq] at h
  obtain ⟨rfl, rfl, rfl, rfl⟩ := h
  simp only [Dims.index, ← Nat.div_div_eq_div_mul]
  rw [Nat.div_add_mod', Nat.div_add_mod', Nat.div_add_mod']

/-- The coordinates of an output element are inside the shape. -/
theorem Dims.coords_lt (d : Dims) (k : Nat) (hk : k < d.flatSize) :
    (d.coords k).1 < d.d0 ∧ (d.coords k).2.1 < d.d1 ∧ (d.coords k).2.2.1 < d.d2 ∧ (d.coords k).2.2.2 < d.d3 := by
  have h0 : 0 < d.d0 * d.d1 * d.d2 * d.d3 := by unfold Dims.flatSize at hk; omega
  have h3 : 0 < d.d3 := Nat.pos_of_mul_pos_left h0
  have h012 : 0 < d.d0 * d.d1 * d.d2 := Nat.pos_of_mul_pos_right h0
  have h2 : 0 < d.d2 := Nat.pos_of_mul_pos_left h012
  have h01 : 0 < d.d0 * d.d1 := Nat.pos_of_mul_pos_right h012
  have h1 : 0 < d.d1 := Nat.pos_of_mul_pos_left h01
  refine ⟨?_, Nat.mod_lt _ h1, Nat.mod_lt _ h2, Nat.mod_lt _ h3⟩
  refine Nat.div_lt_of_lt_mul ?_
  calc k < d.flatSize := hk
    _ = d.d3 * d.d2 * d.d1 * d.d0 := by unfold Dims.flatSize; ring

end Sys2Proof.Machine
end

