-- ==== Sys2Proof/Laws/PerInstr.lean ====
section
/-! SUPPORT. A statement about every constructor of `Instr` as syntax: its encoding. -/

namespace Sys2Proof.Laws.RoundTrip

/-- The instruction is well-formed, its encoding is a legal word of 30_encoding.md R76, and that word decodes to it. -/
def Statement (i : Instr) : Prop := i.wellFormed = true ∧ legalWord (encode i) = true ∧ decode (encode i) = .instr i

theorem conv (hasBias usgn : Bool) : Statement (.conv hasBias usgn) := by
  cases hasBias <;> cases usgn <;> exact ⟨rfl, by decide, by decide⟩

theorem dwconv (hasBias usgn : Bool) : Statement (.dwconv hasBias usgn) := by
  cases hasBias <;> cases usgn <;> exact ⟨rfl, by decide, by decide⟩

theorem qmul : Statement .qmul := ⟨rfl, by decide, by decide⟩

end Sys2Proof.Laws.RoundTrip
end

