-- ==== Sys2Proof/Laws/Source.lean ====
section
/-! SUPPORT. What a command reads (20_memory.md R47, R49): every element it uses lies in a source region, so the bytes of those
regions and the registers fix the bytes it stores. -/

namespace Sys2Proof.Machine

theorem sumBelow_congr (n : Nat) (f g : Nat → Int) (h : ∀ i, i < n → f i = g i) : sumBelow n f = sumBelow n g := by
  induction n with
  | zero => rfl
  | succ n ih => simp only [sumBelow]; rw [ih fun i hi => h i (by omega), h n (by omega)]

theorem sumBelow_eq_sum (n : Nat) (f : Nat → Int) : sumBelow n f = ∑ i ∈ Finset.range n, f i := by
  induction n with
  | zero => rfl
  | succ n ih => rw [sumBelow, ih, Finset.sum_range_succ]

/-- Two states that share registers and free-value counter, and agree on a set of bytes. -/
structure State.AgreeOn (s t : State) (rs : List Region) : Prop where
  get : ∀ r, r ≠ .status → r ≠ .cmd → t.get r = s.get r
  fresh : t.fresh = s.fresh
  bytes : ∀ r ∈ rs, ∀ a, r.contains a = true → t.mem.read a = s.mem.read a

theorem State.readLE_agree {s t : State} {rs : List Region} (h : s.AgreeOn t rs) (r : Region) (hr : r ∈ rs) (a n : Nat)
    (hlo : r.base ≤ a) (hhi : a + n ≤ r.base + r.size) : t.mem.readLE a n = s.mem.readLE a n :=
  Memory.readLE_congr _ _ _ _ fun k hk => h.bytes r hr _ ((r.contains_iff _).2 ⟨by omega, by omega⟩)

section
variable {s t : State} {rs : List Region} (h : s.AgreeOn t rs)
include h

theorem State.AgreeOn.inDims : t.inDims = s.inDims := by
  simp only [State.inDims, h.get _ (by decide : Reg.inDim0 ≠ .status) (by decide), h.get _ (by decide : Reg.inDim1 ≠ .status) (by decide),
    h.get _ (by decide : Reg.inDim2 ≠ .status) (by decide), h.get _ (by decide : Reg.inDim3 ≠ .status) (by decide)]

theorem State.AgreeOn.filtDims : t.filtDims = s.filtDims := by
  simp only [State.filtDims, h.get _ (by decide : Reg.filtDim0 ≠ .status) (by decide), h.get _ (by decide : Reg.filtDim1 ≠ .status) (by decide),
    h.get _ (by decide : Reg.filtDim2 ≠ .status) (by decide), h.get _ (by decide : Reg.filtDim3 ≠ .status) (by decide)]

theorem State.AgreeOn.biasDims : t.biasDims = s.biasDims := by
  simp only [State.biasDims, h.get _ (by decide : Reg.biasDim0 ≠ .status) (by decide), h.get _ (by decide : Reg.biasDim1 ≠ .status) (by decide),
    h.get _ (by decide : Reg.biasDim2 ≠ .status) (by decide), h.get _ (by decide : Reg.biasDim3 ≠ .status) (by decide)]

theorem State.AgreeOn.outDims : t.outDims = s.outDims := by
  simp only [State.outDims, h.get _ (by decide : Reg.outDim0 ≠ .status) (by decide), h.get _ (by decide : Reg.outDim1 ≠ .status) (by decide),
    h.get _ (by decide : Reg.outDim2 ≠ .status) (by decide), h.get _ (by decide : Reg.outDim3 ≠ .status) (by decide)]

theorem State.AgreeOn.convFiltDims : t.convFiltDims = s.convFiltDims := by
  simp only [State.convFiltDims, h.inDims, h.filtDims, h.outDims]

theorem State.AgreeOn.tapY (oy fy : Nat) : t.tapY oy fy = s.tapY oy fy := by
  simp only [State.tapY, h.get _ (by decide : Reg.strideH ≠ .status) (by decide), h.get _ (by decide : Reg.padH ≠ .status) (by decide),
    h.get _ (by decide : Reg.dilH ≠ .status) (by decide)]

theorem State.AgreeOn.tapX (ox fx : Nat) : t.tapX ox fx = s.tapX ox fx := by
  simp only [State.tapX, h.get _ (by decide : Reg.strideW ≠ .status) (by decide), h.get _ (by decide : Reg.padW ≠ .status) (by decide),
    h.get _ (by decide : Reg.dilW ≠ .status) (by decide)]

theorem State.AgreeOn.tapInBounds (y x : Int) : t.tapInBounds y x = s.tapInBounds y x := by
  simp only [State.tapInBounds, h.inDims]

theorem State.AgreeOn.inElem (usgn : Bool) (b y x c : Nat) (hr : s.inRegion ∈ rs) (hb : b < s.inDims.d0)
    (hy : y < s.inDims.d1) (hx : x < s.inDims.d2) (hc : c < s.inDims.d3) : t.inElem usgn b y x c = s.inElem usgn b y x c := by
  have hlt := s.inDims.index_lt b y x c hb hy hx hc
  simp only [State.inElem, State.inAddr, h.inDims, h.get _ (by decide : Reg.inBase ≠ .status) (by decide)]
  rw [State.readLE_agree h _ hr _ _ (by simp [State.inRegion]) (by simp only [State.inRegion]; omega)]

theorem State.AgreeOn.filtElemConv (usgn : Bool) (oc fy fx ic : Nat) (hr : s.filtRegion s.convFiltSize ∈ rs)
    (hoc : oc < s.outDims.d3) (hfy : fy < s.filtDims.d1) (hfx : fx < s.filtDims.d2) (hic : ic < s.inDims.d3) :
    t.filtElemConv usgn oc fy fx ic = s.filtElemConv usgn oc fy fx ic := by
  have hlt := s.convFiltDims.index_lt oc fy fx ic hoc hfy hfx hic
  simp only [State.filtElemConv, h.convFiltDims, h.get _ (by decide : Reg.filtBase ≠ .status) (by decide)]
  rw [State.readLE_agree h _ hr _ _ (by simp [State.filtRegion]) (by simp only [State.filtRegion, State.convFiltSize]; omega)]

theorem State.AgreeOn.filtElemDw (usgn : Bool) (fy fx oc : Nat) (hr : s.filtRegion s.dwFiltSize ∈ rs)
    (hfy : fy < s.filtDims.d1) (hfx : fx < s.filtDims.d2) (hoc : oc < s.outDims.d3) :
    t.filtElemDw usgn fy fx oc = s.filtElemDw usgn fy fx oc := by
  have hlt := Dims.index_lt { d0 := 1, d1 := s.filtDims.d1, d2 := s.filtDims.d2, d3 := s.outDims.d3 } 0 fy fx oc (by simp) hfy hfx hoc
  simp only [Dims.index, Dims.flatSize, zero_mul, zero_add, one_mul] at hlt
  simp only [State.filtElemDw, h.filtDims, h.outDims, h.get _ (by decide : Reg.filtBase ≠ .status) (by decide)]
  rw [State.readLE_agree h _ hr _ _ (by simp [State.filtRegion]) (by simp only [State.filtRegion, State.dwFiltSize]; omega)]

theorem State.AgreeOn.biasElem (oc : Nat) (hr : s.biasRegion ∈ rs) (hoc : oc < s.outDims.d3) : t.biasElem oc = s.biasElem oc := by
  simp only [State.biasElem, h.get _ (by decide : Reg.biasBase ≠ .status) (by decide)]
  rw [State.readLE_agree h _ hr _ _ (by simp [State.biasRegion]) (by simp only [State.biasRegion]; omega)]

theorem State.AgreeOn.seed (hasBias : Bool) (oc : Nat) (hr : hasBias = true → s.biasRegion ∈ rs) (hoc : oc < s.outDims.d3) :
    t.seed hasBias oc = s.seed hasBias oc := by
  unfold State.seed
  split
  · next hb => exact h.biasElem oc (hr hb) hoc
  · rfl

theorem State.AgreeOn.multElem (oc : Nat) (hr : s.multRegion ∈ rs) (hoc : oc < s.outDims.d3) : t.multElem oc = s.multElem oc := by
  simp only [State.multElem, h.get _ (by decide : Reg.multBase ≠ .status) (by decide)]
  rw [State.readLE_agree h _ hr _ _ (by simp [State.multRegion]) (by simp only [State.multRegion]; omega)]

theorem State.AgreeOn.shiftElem (oc : Nat) (hr : s.shiftRegion ∈ rs) (hoc : oc < s.outDims.d3) :
    t.shiftElem oc = s.shiftElem oc := by
  simp only [State.shiftElem, h.get _ (by decide : Reg.shiftBase ≠ .status) (by decide)]
  rw [State.readLE_agree h _ hr _ _ (by simp [State.shiftRegion]) (by simp only [State.shiftRegion]; omega)]

end

/-- A tap in bounds has input coordinates inside the input's height and width. -/
theorem State.tapInBounds_lt (s : State) (y x : Int) (h : s.tapInBounds y x = true) :
    y.toNat < s.inDims.d1 ∧ x.toNat < s.inDims.d2 := by
  simp only [State.tapInBounds, Bool.and_eq_true, decide_eq_true_eq] at h
  omega

theorem State.mem_sourceRegions (s : State) (hasBias : Bool) (filtSize : Nat) :
    s.inRegion ∈ s.sourceRegions hasBias filtSize ∧ s.filtRegion filtSize ∈ s.sourceRegions hasBias filtSize ∧
    s.multRegion ∈ s.sourceRegions hasBias filtSize ∧ s.shiftRegion ∈ s.sourceRegions hasBias filtSize ∧
    (hasBias = true → s.biasRegion ∈ s.sourceRegions hasBias filtSize) := by
  cases hasBias <;> simp [State.sourceRegions]

/-- The accumulator of CONV is fixed by the registers and the source bytes. -/
theorem State.convAcc_agree {s t : State} (hasBias usgn : Bool) (h : s.AgreeOn t (s.sourceRegions hasBias s.convFiltSize))
    (b oy ox oc : Nat) (hb : b < s.inDims.d0) (hoc : oc < s.outDims.d3) :
    t.convAcc hasBias usgn b oy ox oc = s.convAcc hasBias usgn b oy ox oc := by
  obtain ⟨hin, hfilt, -, -, hbias⟩ := s.mem_sourceRegions hasBias s.convFiltSize
  simp only [State.convAcc, State.convSum, h.seed hasBias oc hbias hoc, h.filtDims]
  congr 2
  refine sumBelow_congr _ _ _ fun fy hfy => sumBelow_congr _ _ _ fun fx hfx => ?_
  simp only [State.convTap, h.tapY, h.tapX, h.tapInBounds, h.inDims, h.get _ (by decide : Reg.inOffset ≠ .status) (by decide)]
  split
  · next ht =>
    obtain ⟨hy, hx⟩ := s.tapInBounds_lt _ _ ht
    refine sumBelow_congr _ _ _ fun ic hic => ?_
    rw [h.filtElemConv usgn oc fy fx ic hfilt hoc hfy hfx hic, h.inElem usgn b _ _ ic hin hb hy hx hic]
  · rfl

/-- The accumulator of DWCONV is fixed by the registers and the source bytes. -/
theorem State.dwAcc_agree {s t : State} (hasBias usgn : Bool) (h : s.AgreeOn t (s.sourceRegions hasBias s.dwFiltSize))
    (b oy ox oc : Nat) (hb : b < s.inDims.d0) (hoc : oc < s.outDims.d3) (hic : s.dwChannel oc < s.inDims.d3) :
    t.dwAcc hasBias usgn b oy ox oc = s.dwAcc hasBias usgn b oy ox oc := by
  obtain ⟨hin, hfilt, -, -, hbias⟩ := s.mem_sourceRegions hasBias s.dwFiltSize
  have hch : t.dwChannel oc = s.dwChannel oc := by
    simp only [State.dwChannel, State.depthMult, h.get _ (by decide : Reg.depthMult ≠ .status) (by decide)]
  simp only [State.dwAcc, State.dwSum, h.seed hasBias oc hbias hoc, h.filtDims]
  congr 2
  refine sumBelow_congr _ _ _ fun fy hfy => sumBelow_congr _ _ _ fun fx hfx => ?_
  simp only [State.dwTap, h.tapY, h.tapX, h.tapInBounds, hch, h.get _ (by decide : Reg.inOffset ≠ .status) (by decide)]
  split
  · next ht =>
    obtain ⟨hy, hx⟩ := s.tapInBounds_lt _ _ ht
    rw [h.filtElemDw usgn fy fx oc hfilt hfy hfx hoc, h.inElem usgn b _ _ _ hin hb hy hx hic]
  · rfl

/-- Rescale, offset and clamp of a channel are fixed by the registers, its multiplier and its shift. -/
theorem State.clamped_agree {s t : State} {rs : List Region} (h : s.AgreeOn t rs) (hm : s.multRegion ∈ rs) (hs : s.shiftRegion ∈ rs)
    (acc : Int) (oc k : Nat) (hoc : oc < s.outDims.d3) : t.clamped acc oc k = s.clamped acc oc k := by
  simp only [State.clamped, h.multElem oc hm hoc, h.shiftElem oc hs hoc, h.fresh,
    h.get _ (by decide : Reg.actMin ≠ .status) (by decide), h.get _ (by decide : Reg.actMax ≠ .status) (by decide),
    h.get _ (by decide : Reg.outOffset ≠ .status) (by decide)]

/-- `0 ≤ ic(oc) < IC` after validation (42_dwconv.md R141). -/
theorem State.dwChannel_lt (s : State) (hasBias : Bool) (h : s.dwShapesOk hasBias = true) (oc : Nat) (hoc : oc < s.outDims.d3) :
    s.dwChannel oc < s.inDims.d3 := by
  simp only [State.dwShapesOk, Bool.and_eq_true, decide_eq_true_eq] at h
  rw [h.1.1.2] at hoc
  exact Nat.div_lt_of_lt_mul (by rwa [mul_comm])

/-- The batch index of an output element is inside the input's batch after validation (41_conv.md R112, V2). -/
theorem State.batch_of_convShapesOk (s : State) (hasBias : Bool) (h : s.convShapesOk hasBias = true) :
    s.inDims.d0 = s.outDims.d0 := by
  simp only [State.convShapesOk, Bool.and_eq_true, decide_eq_true_eq] at h
  exact h.1.1.1.2

/-- The same for DWCONV (42_dwconv.md R142, W2). -/
theorem State.batch_of_dwShapesOk (s : State) (hasBias : Bool) (h : s.dwShapesOk hasBias = true) :
    s.inDims.d0 = s.outDims.d0 := by
  simp only [State.dwShapesOk, Bool.and_eq_true, decide_eq_true_eq] at h
  exact h.1.1.1.2

/-- The bytes CONV stores are fixed by the registers and the source bytes. -/
theorem State.convByte_agree {s t : State} (hasBias usgn : Bool) (hv : s.convShapesOk hasBias = true)
    (h : s.AgreeOn t (s.sourceRegions hasBias s.convFiltSize)) (k : Nat) (hk : k < s.outDims.flatSize) :
    t.convByte hasBias usgn k = s.convByte hasBias usgn k := by
  obtain ⟨-, -, hm, hs, -⟩ := s.mem_sourceRegions hasBias s.convFiltSize
  obtain ⟨h0, -, -, h3⟩ := s.outDims.coords_lt k hk
  simp only [State.convByte, State.elemByte, h.outDims]
  rw [State.convAcc_agree hasBias usgn h _ _ _ _ (by rw [s.batch_of_convShapesOk hasBias hv]; exact h0) h3,
    State.clamped_agree h hm hs _ _ _ h3]

/-- The bytes DWCONV stores are fixed by the registers and the source bytes. -/
theorem State.dwByte_agree {s t : State} (hasBias usgn : Bool) (hv : s.dwShapesOk hasBias = true)
    (h : s.AgreeOn t (s.sourceRegions hasBias s.dwFiltSize)) (k : Nat) (hk : k < s.outDims.flatSize) :
    t.dwByte hasBias usgn k = s.dwByte hasBias usgn k := by
  obtain ⟨-, -, hm, hs, -⟩ := s.mem_sourceRegions hasBias s.dwFiltSize
  obtain ⟨h0, -, -, h3⟩ := s.outDims.coords_lt k hk
  simp only [State.dwByte, State.elemByte, h.outDims]
  rw [State.dwAcc_agree hasBias usgn h _ _ _ _ (by rw [s.batch_of_dwShapesOk hasBias hv]; exact h0) h3
      (s.dwChannel_lt hasBias hv _ h3),
    State.clamped_agree h hm hs _ _ _ h3]

end Sys2Proof.Machine
end

