-- ==== Sys2Proof/Laws/Ready.lean ====
section
/-! SUPPORT. What a command does when its premises hold (70_reset_and_hazards.md R193 to R199), and what the premises say of every
byte. -/

namespace Sys2Proof.Machine

/-- `buffersMapped` is `BuffersMapped` byte by byte, for CONV. -/
theorem State.buffersMapped_conv (s : State) (hasBias usgn : Bool) :
    s.BuffersMapped (.conv hasBias usgn) ↔ s.buffersMapped hasBias s.convFiltSize = true := by
  simp only [State.BuffersMapped, State.regionsOf, State.sourcesOf, State.buffersMapped, List.all_eq_true]
  exact forall₂_congr fun r _ => (s.regionMapped_iff r).symm

/-- The same for DWCONV. -/
theorem State.buffersMapped_dwconv (s : State) (hasBias usgn : Bool) :
    s.BuffersMapped (.dwconv hasBias usgn) ↔ s.buffersMapped hasBias s.dwFiltSize = true := by
  simp only [State.BuffersMapped, State.regionsOf, State.sourcesOf, State.buffersMapped, List.all_eq_true]
  exact forall₂_congr fun r _ => (s.regionMapped_iff r).symm

/-- Two disjoint ranges have no common byte. -/
theorem Region.not_contains_of_disjoint (r q : Region) (h : r.disjoint q = true) (a : Nat) (hr : r.contains a = true) :
    ¬q.contains a = true := by
  rw [Region.contains_iff] at hr ⊢
  simp only [Region.disjoint, Bool.or_eq_true, decide_eq_true_eq] at h
  omega

/-- Under the premises the engine stores the byte the rules give. -/
theorem State.storedByte_of_premises (s : State) (hasBias : Bool) (filtSize : Nat) (value : Nat → Byte)
    (h : s.premises hasBias filtSize = true) (k : Nat) (hk : k < s.outDims.flatSize) :
    s.storedByte hasBias filtSize value k = value k := by
  simp only [State.premises, Bool.and_eq_true] at h
  have hu : s.outUndisturbed k = true := by
    simp only [State.outUndisturbed, Bool.not_eq_true', List.contains_eq_mem, decide_eq_false_iff_not]
    intro hm
    have hall := h.2
    simp only [State.outputsDisjoint, List.all_eq_true] at hall
    have := hall _ hm
    simp [Region.contains, State.outRegion, State.outAddr] at this
    omega
  simp [State.storedByte, h.1.1.2, h.1.2, hu]

/-- What a completed walk over the output leaves at output byte `k`. -/
theorem State.read_output (s : State) (f : Nat → Byte) (k : Nat) (hk : k < s.outDims.flatSize) :
    (s.mem.storeRange (s.outAddr 0) s.outDims.flatSize f).read (u32 (s.get .outBase) + k) = f k := by
  rw [Memory.read_storeRange, if_pos (by simp only [State.outAddr]; omega)]
  congr 1
  simp only [State.outAddr]
  omega

/-- What a completed walk over the output leaves outside region `OUT`. -/
theorem State.read_outside (s : State) (f : Nat → Byte) (a : Nat) (ha : s.outsideOut a) :
    (s.mem.storeRange (s.outAddr 0) s.outDims.flatSize f).read a = s.mem.read a := by
  rw [Memory.read_storeRange, if_neg]
  exact ha

end Sys2Proof.Machine
end

