-- ==== Sys2Proof/Tests/Slice0.lean ====
section
/-! SUPPORT. The model's own tests.  Expected values are those of 95_test_vectors.md or worked by hand from the rules named; and a
witness for every statement that has hypotheses. -/

open Sys2Proof Sys2Proof.Machine

namespace Sys2Proof.Tests

/-! ### Small states -/

/-- `MEM8` of 30_encoding.md R81. -/
def mem8 (m : Memory) (a : Nat) (vs : List Int) : Memory :=
  match vs with
  | [] => m
  | v :: vs => mem8 (m.write a (low8 v)) (a + 1) vs

/-- `MEM32` of R81. -/
def mem32 (m : Memory) (a : Nat) (vs : List Int) : Memory :=
  match vs with
  | [] => m
  | v :: vs => mem32 (mem8 m a [v, v / 2 ^ 8, v / 2 ^ 16, v / 2 ^ 24]) (a + 4) vs

/-- A series of `WR` of R81 made while the engine is idle. -/
def wr (s : State) (l : List (Reg × Word)) : State :=
  match l with
  | [] => s
  | (r, v) :: l => wr (s.set r v) l

/-- The reset state on a platform whose register window stands at 0x40000000. -/
def platform : State := { State.reset with qceBase := 0x40000000 }

/-- The defaults of 95_test_vectors.md 2.3: strides and dilations 1, bounds −128 and 127, the base addresses of its conventions. -/
def defaults : State :=
  wr platform
    [(.strideH, 1), (.strideW, 1), (.dilH, 1), (.dilW, 1), (.actMin, 0xFFFFFF80), (.actMax, 0x7F), (.inBase, 0x1000),
     (.filtBase, 0x2000), (.biasBase, 0x3200), (.outBase, 0x4000), (.multBase, 0x3000), (.shiftBase, 0x3100)]

/-- `SHAPE` for the four tensors, and the data memory. -/
def tensors (i f b o : Shape) (m : Memory) : State :=
  { defaults with win := { defaults.win with inDim := i, filtDim := f, biasDim := b, outDim := o }, mem := m }

/-- One element: input 4, filter 2, scale 1.0, bias 0; `OUT` (1,1,1,1). -/
def tiny : State :=
  tensors ⟨1, 1, 1, 1⟩ ⟨1, 1, 1, 1⟩ ⟨1, 1, 1, 1⟩ ⟨1, 1, 1, 1⟩
    (mem32 (mem32 (mem8 (mem8 [] 0x1000 [4]) 0x2000 [2]) 0x3000 [0x40000000]) 0x3100 [-30])

/-- `tiny` with depth multiplier 1. -/
def tinyDw : State := tiny.set .depthMult 1

/-- The launch of 95_test_vectors.md P3: depth multiplier 2, four scales. -/
def programThree : State :=
  wr (tensors ⟨1, 2, 2, 2⟩ ⟨1, 2, 2, 4⟩ ⟨1, 1, 1, 4⟩ ⟨1, 1, 1, 4⟩
    (mem32 (mem32 (mem32 (mem8 (mem8 [] 0x1000 [1, -2, 3, -4, 5, -6, 7, -8]) 0x2000
      [1, 2, 3, 4, -1, -2, -3, -4, 2, 0, -2, 0, 1, 1, 1, 1]) 0x3000 [0x40000000, 0x40000000, 0x60000000, 0x40000000])
      0x3100 [-30, -31, -31, -32]) 0x3200 [0, 100, -100, 7]))
    [(.inOffset, 0xFFFFFFFF), (.outOffset, 5), (.depthMult, 2)]

/-- The command word launched, `BUSY` = 1, nobody else on the agenda. -/
def running (s : State) (w : Word) : State := s.launch w

/-- The operands of QMUL. -/
def qmulState (acc m sh : Word) : State := wr State.reset [(.qmAcc, acc), (.qmMult, m), (.qmShift, sh)]

/-- The state with one turn to take. -/
def withTurn (s : State) (t : Turn) : State := { s with agenda := [t] }

def statusOf (o : Host.Outcome State Fault Refusal) : Option Word :=
  match o with
  | .next t => some (t.get .status)
  | .fault _ => none
  | .refused _ => none

def regOf (r : Reg) (o : Host.Outcome State Fault Refusal) : Option Word :=
  match o with
  | .next t => some (t.get r)
  | .fault _ => none
  | .refused _ => none

def bytesOf (a n : Nat) (o : Host.Outcome State Fault Refusal) : List Byte :=
  match o with
  | .next t => (List.range n).map fun k => t.mem.read (a + k)
  | .fault _ => []
  | .refused _ => []

/-! ### Well-formedness and decoding -/

/-- 30_encoding.md R76: one word that breaks each check; 95_test_vectors.md EV10, EV11, EV13 to EV17, EV19. -/
theorem test_illegal_words_refused :
    reservedBitsZero 0x41 = false ∧ legalWord 0x41 = false ∧ legalWord 0x80000001 = false ∧
    operationDefined 0x00 = false ∧ legalWord 0x00 = false ∧ legalWord 0x07 = false ∧ legalWord 0x0F = false ∧
    legalWord 0x13 = false ∧ legalWord 0x23 = false ∧ legalWord 0x30 = false := by decide

/-- R76: the nine legal words. -/
theorem test_legal_words_accepted :
    ([0x01, 0x11, 0x21, 0x31, 0x02, 0x12, 0x22, 0x32, 0x03] : List Word).all legalWord = true := by decide

/-- R70: the pattern `00…00 u b pppp`, written out; EV4, EV7, EV9. -/
theorem test_decode_conv_word : decode 0b00000000000000000000000000110001#32 = .instr (.conv true true) := by decide
theorem test_decode_conv_bias_word : decode 0b00000000000000000000000000010001#32 = .instr (.conv true false) := by decide
theorem test_decode_dwconv_word : decode 0b00000000000000000000000000100010#32 = .instr (.dwconv false true) := by decide
theorem test_decode_qmul_word : decode 0b00000000000000000000000000000011#32 = .instr .qmul := by decide
theorem test_decode_illegal_word : decode 0b00000000000000000000000001000001#32 = .illegal .reservedBits := by decide

/-- The first instruction after reset, for one word of each row; XV2. -/
theorem test_first_command_after_reset :
    statusOf (step (State.reset.withFetchWord 32 0x31)) = some 2 ∧ statusOf (step (State.reset.withFetchWord 32 0x02)) = some 2 ∧
    statusOf (step (State.reset.withFetchWord 32 0x03)) = some 2 ∧ statusOf (step (State.reset.withFetchWord 32 0x07)) = some 0x304 := by
  decide

/-! ### The three commands -/

/-- 95_test_vectors.md Q1, Q2, Q3, Q5, Q11, Q12, Q18. -/
theorem test_qmul_rounds_half_away :
    regOf .qmResult (execQmul (qmulState 100 0x40000000 0xFFFFFFE1)) = some 0x32 ∧
    regOf .qmResult (execQmul (qmulState 1 0x40000000 0xFFFFFFE1)) = some 1 ∧
    regOf .qmResult (execQmul (qmulState 0xFFFFFFFF 0x40000000 0xFFFFFFE1)) = some 0xFFFFFFFF ∧
    regOf .qmResult (execQmul (qmulState 0xFFFFFFFD 0x40000000 0xFFFFFFE1)) = some 0xFFFFFFFE ∧
    regOf .qmResult (execQmul (qmulState 0x7FFFFFFF 0x7FFFFFFF 0xFFFFFFC1)) = some 0 ∧
    regOf .qmResult (execQmul (qmulState 0x80000000 0x7FFFFFFF 0xFFFFFFC2)) = some 0xFFFFFFFF ∧
    regOf .qmResult (execQmul (qmulState 0xFFFFFFFF 1 31)) = some 0x80000000 := by decide

/-- Q17, Q29, Q30, Q31: outside `Dom` the command still completes. -/
theorem test_qmul_outside_dom_completes :
    inDom 1 1 31 = false ∧ inDom 100 (2 ^ 30) 32 = false ∧ inDom 100 (-1) 0 = false ∧ inDom 100 1 (-64) = false ∧
    statusOf (execQmul (qmulState 1 1 31)) = some 2 := by decide

/-- R94: a QMUL outside `Dom` abandoned by a reset after its early store, and one launched after the reset, draw two free values. -/
theorem test_reset_spends_free_values :
    (running (qmulState 1 1 31) 0x03).fresh = 0 ∧ (running (qmulState 1 1 31) 0x03).applyReset.fresh = 1 ∧
    (running programThree 0x12).applyReset.fresh = 4 := by decide

/-- 95_test_vectors.md CV15: dilation 3, padding 2, one row. -/
theorem test_conv_dilation_and_padding :
    bytesOf 0x4000 6
      (execConv false false
        (wr (tensors ⟨1, 1, 7, 1⟩ ⟨1, 1, 3, 1⟩ ⟨0, 0, 0, 0⟩ ⟨1, 1, 5, 1⟩
          (mem32 (mem32 (mem8 (mem8 (mem8 [] 0x1000 [1, 2, 3, 4, 5, 6, 7]) 0x2000 [1, 10, -1]) 0x4005 [0xEE]) 0x3000 [0x40000000])
            0x3100 [-30]))
          [(.dilW, 3), (.padW, 2)])) = [0x0F, 0x18, 0x22, 0x34, 0x3F, 0xEE] := by decide

/-- CV7: the accumulator wraps; CV16 h: the bias length is the exact product. -/
theorem test_conv_wraps_and_checks_exact_product :
    bytesOf 0x4000 1
      (execConv true false
        (tensors ⟨1, 1, 1, 1⟩ ⟨1, 1, 1, 1⟩ ⟨1, 1, 1, 1⟩ ⟨1, 1, 1, 1⟩
          (mem32 (mem32 (mem32 (mem8 (mem8 [] 0x1000 [1]) 0x2000 [1]) 0x3000 [0x40000000]) 0x3100 [-54]) 0x3200 [0x7FFFFFFF]))) =
      [0x80] ∧
    statusOf (execConv true false (tensors ⟨0, 1, 1, 1⟩ ⟨0, 1, 1, 1⟩ ⟨65536, 65536, 1, 1⟩ ⟨0, 1, 1, 0⟩ [])) = some 0x104 := by
  decide

set_option maxRecDepth 4096 in
/-- P3: its output bytes, each from the memory at the launch. -/
theorem test_dwconv_program_three :
    programThree.ready (.dwconv true false) = true ∧ programThree.dwByte true false 0 = 0x11 ∧
    programThree.dwByte true false 1 = 0x38 ∧ programThree.dwByte true false 2 = 0xC2 ∧
    programThree.dwByte true false 3 = 0x07 := by
  refine ⟨?_, ?_, ?_, ?_, ?_⟩ <;> decide

/-- DV5: depth multiplier 0; DV6 f: the channel product is exact. -/
theorem test_dwconv_channel_product :
    statusOf (execDwconv false false (tensors ⟨1, 1, 1, 3⟩ ⟨1, 1, 1, 0⟩ ⟨0, 0, 0, 0⟩ ⟨1, 1, 1, 0⟩ [])) = some 2 ∧
    statusOf (execDwconv false false
      ((tensors ⟨0, 1, 1, 65536⟩ ⟨1, 1, 1, 65536⟩ ⟨0, 0, 0, 0⟩ ⟨0, 1, 1, 65536⟩ []).set .depthMult 65537)) = some 0x104 := by
  decide

/-! ### Witnesses: states and operands that meet the hypotheses of the statements -/

theorem witness_legal_is_exactly_nine_words :
    (running tiny 0x41).nextTurn = .engine ∧ (running tiny 0x41).busy = true ∧ (running tiny 0x41).get .cmd = 0x41 ∧
    legalWord 0x41 = false ∧ legalWord 0x3F = false ∧ legalWord 0x33 = false := by decide

theorem witness_opcode_table_rows :
    decode 0x31 = .instr (.conv true true) ∧ decode 0x32 = .instr (.dwconv true true) ∧ decode 0x03 = .instr .qmul ∧
    (0x13 : Word) &&& 0xFFFFFFCF ≠ 1 ∧ (0x13 : Word) &&& 0xFFFFFFCF ≠ 2 ∧ (0x13 : Word) &&& 0xFFFFFFFF ≠ 3 := by decide

theorem witness_engine_turn_runs_decoded_command :
    (running tiny 0x11).nextTurn = .engine ∧ (running tiny 0x11).busy = true ∧
    decode ((running tiny 0x11).get .cmd) = .instr (.conv true false) := by decide

theorem witness_idle_engine_waits : State.reset.nextTurn = .engine ∧ State.reset.busy = false := by decide

theorem witness_launch_latches_command :
    tiny.qceBase = 0x40000000 ∧
    (withTurn tiny (.hostWrite 32 0x40000000 0x11)).nextTurn = .hostWrite 32 (tiny.qceBase + 0x00) 0x11 ∧
    (withTurn tiny (.hostWrite 32 0x40000000 0x11)).busy = false ∧
    (withTurn (running tiny 0x11) (.hostWrite 32 0x40000000 0x11)).busy = true := by decide

theorem witness_rejection_changes_status_only : Reg.strideH ≠ .cmd ∧ Reg.strideH.readOnly = false := by decide

theorem witness_illegal_word_raises_ecmd :
    (running tiny 0x00).nextTurn = .engine ∧ (running tiny 0x00).busy = true ∧
    ((running tiny 0x00).get .cmd).extractLsb' 0 4 = 0 ∧ 4 ≤ ((running tiny 0x04).get .cmd).extractLsb' 0 4 ∧
    ((running tiny 0x80000001).get .cmd).extractLsb' 6 26 ≠ 0 ∧ ((running tiny 0x13).get .cmd).extractLsb' 0 4 = 3 ∧
    ((running tiny 0x13).get .cmd).extractLsb' 4 2 ≠ 0 := by decide

theorem witness_relaunch_is_rejected_again :
    ∃ t, (running (tiny.set .outDim0 2) 0x01).busy = true ∧ (running (tiny.set .outDim0 2) 0x01).engineTurn = .next t ∧
      statusErrorBit (t.get .status) = true := by
  obtain ⟨t, ht⟩ := exists_of_isNext ((running (tiny.set .outDim0 2) 0x01).engineTurn) (by decide)
  have hs : statusOf ((running (tiny.set .outDim0 2) 0x01).engineTurn) = some 0x104 := by decide
  rw [ht] at hs
  exact ⟨t, by decide, ht, by rw [Option.some.inj hs]; decide⟩

theorem witness_round_half_away_is_nearest :
    (0 : Int) ≤ 1 ∧ (-1 : Int) < 0 ∧ 2 * |roundHalfAway 1 1 * 2 ^ 1 - 1| = 2 ^ 1 ∧
    2 * |roundHalfAway (-1) 1 * 2 ^ 1 - (-1)| = 2 ^ 1 := by decide

theorem witness_qmul_laws :
    2 * ((5 : Int) * 1) = (2 * 2 + 1) * 2 ^ 1 ∧ 2 * ((-5 : Int) * 1) = -((2 * 2 + 1) * 2 ^ 1) ∧ (0 : Int) ≤ 0 ∧ (-7 : Int) ≤ 7 := by
  decide

theorem witness_dom_holds_for_scales_up_to_one :
    fits32 (-2 ^ 31) = true ∧ validPair 1 0 = true ∧ (1 : Int) ≤ 2 ^ (-(0 : Int)).toNat ∧ validPair (2 ^ 31 - 1) (-31) = true ∧
    validPair (2 ^ 31 - 1) (-63) = true := by decide

theorem witness_fixed_width_datapath_agrees :
    inDom (-1) 1 31 = true ∧ inDom (-2 ^ 31) (2 ^ 31 - 1) (-63) = true ∧ inDom 12345 1 0 = true := by decide

theorem witness_qmul_completes :
    inDom (s32 ((qmulState 100 1 0).get .qmAcc)) (s32 ((qmulState 100 1 0).get .qmMult)) (s32 ((qmulState 100 1 0).get .qmShift)) = true ∧
    inDom (s32 ((qmulState 1 1 31).get .qmAcc)) (s32 ((qmulState 1 1 31).get .qmMult)) (s32 ((qmulState 1 1 31).get .qmShift)) = false := by
  decide

theorem witness_qmul_frame : ∃ t, exec .qmul tiny = .next t := exists_of_isNext _ (by decide)

/-- CV16 a to g, one failing check each; and `tiny`, which passes all. -/
theorem witness_conv_shape_checks :
    tiny.convShapesOk true = true ∧ (tiny.set .shapeRank 0x04040403).convShapesOk false = false ∧
    (tiny.set .shapeRank 0x05040404).convShapesOk false = false ∧ (tiny.set .shapeRank 0x04010404).convShapesOk true = false ∧
    (tiny.set .inDim0 2).convShapesOk false = false ∧ (tiny.set .inDim3 2).convShapesOk false = false ∧
    (tiny.set .filtDim0 2).convShapesOk false = false ∧ (tiny.set .biasDim3 3).convShapesOk true = false := by decide

/-- DV6 a to e, one failing check each; and `tinyDw`, which passes all. -/
theorem witness_dwconv_shape_checks :
    tinyDw.dwShapesOk true = true ∧ (tinyDw.set .shapeRank 0x04040403).dwShapesOk false = false ∧
    (tinyDw.set .inDim0 2).dwShapesOk false = false ∧ (tinyDw.set .depthMult 2).dwShapesOk false = false ∧
    (tinyDw.set .filtDim3 2).dwShapesOk false = false ∧ (tinyDw.set .biasDim3 3).dwShapesOk true = false := by decide

theorem witness_validated_commands_complete :
    tiny.shapesOk (.conv true true) = true ∧ tiny.BuffersMapped (.conv true true) ∧ tinyDw.shapesOk (.dwconv true true) = true ∧
    tinyDw.BuffersMapped (.dwconv true true) ∧ tiny.shapesOk .qmul = true ∧ tiny.BuffersMapped .qmul :=
  ⟨by decide, (State.buffersMapped_conv _ _ _).2 (by decide), by decide, (State.buffersMapped_dwconv _ _ _).2 (by decide), by decide,
    by simp [State.BuffersMapped, State.regionsOf]⟩

/-- The 4-byte multiplier ends at the top of the space, and one byte higher it wraps; and nothing mapped. -/
theorem witness_unmapped_buffers_refused :
    (tiny.set .multBase 0xFFFFFFFC).BuffersMapped (.conv true false) ∧
    (tiny.set .multBase 0xFFFFFFFD).shapesOk (.conv true false) = true ∧
    ¬(tiny.set .multBase 0xFFFFFFFD).BuffersMapped (.conv true false) ∧
    ¬({ tinyDw with mapped := [] } : State).BuffersMapped (.dwconv false false) := by
  refine ⟨(State.buffersMapped_conv _ _ _).2 (by decide), by decide, ?_, ?_⟩
  · rw [State.buffersMapped_conv]; decide
  · rw [State.buffersMapped_dwconv]; decide

theorem witness_conv_computes_every_output : tiny.ready (.conv true false) = true ∧ tiny.isOutput 0 0 0 0 :=
  ⟨by decide, by unfold State.isOutput; decide⟩

theorem witness_dwconv_computes_every_output : tinyDw.ready (.dwconv true false) = true ∧ tinyDw.isOutput 0 0 0 0 :=
  ⟨by decide, by unfold State.isOutput; decide⟩

/-- The byte before `OUT` and the byte after it are outside, its one byte is not; one launch completes, one is rejected. -/
theorem witness_tensor_frame :
    (∃ t, exec (.conv true false) tiny = .next t) ∧ (∃ t, exec (.dwconv true false) tinyDw = .next t) ∧
    statusOf (exec (.conv false false) (tiny.set .inDim0 2)) = some 0x104 ∧
    tiny.outsideOut 0x3FFF ∧ ¬tiny.outsideOut 0x4000 ∧ tiny.outsideOut 0x4001 :=
  ⟨exists_of_isNext _ (by decide), exists_of_isNext _ (by decide), by decide, by unfold State.outsideOut; decide,
    by unfold State.outsideOut; decide, by unfold State.outsideOut; decide⟩

/-- CV2: bounds 5 and −5. -/
theorem witness_reversed_bounds_pin_to_min :
    (wr tiny [(.actMin, 5), (.actMax, 0xFFFFFFFB)]).ready (.conv false false) = true ∧
    (wr tinyDw [(.actMin, 5), (.actMax, 0xFFFFFFFB)]).ready (.dwconv false false) = true ∧
    s32 ((wr tiny [(.actMin, 5), (.actMax, 0xFFFFFFFB)]).get .actMax) < s32 ((wr tiny [(.actMin, 5), (.actMax, 0xFFFFFFFB)]).get .actMin) ∧
    0 < tiny.outDims.flatSize := by decide

/-- The full ranges of the two element types. -/
theorem witness_outputs_lie_within_bounds :
    (∃ t, tiny.ready (.conv false false) = true ∧ exec (.conv false false) tiny = .next t) ∧
    (∃ t, (wr tiny [(.actMin, 0), (.actMax, 255)]).ready (.conv false true) = true ∧
      exec (.conv false true) (wr tiny [(.actMin, 0), (.actMax, 255)]) = .next t) ∧
    s32 (tiny.get .actMin) = -128 ∧ s32 (tiny.get .actMax) = 127 ∧
    s32 ((wr tiny [(.actMin, 0), (.actMax, 255)]).get .actMin) = 0 ∧ s32 ((wr tiny [(.actMin, 0), (.actMax, 255)]).get .actMax) = 255 := by
  refine ⟨?_, ?_, by decide, by decide, by decide, by decide⟩
  · obtain ⟨t, ht⟩ := exists_of_isNext (exec (.conv false false) tiny) (by decide)
    exact ⟨t, by decide, ht⟩
  · obtain ⟨t, ht⟩ := exists_of_isNext (exec (.conv false true) (wr tiny [(.actMin, 0), (.actMax, 255)])) (by decide)
    exact ⟨t, by decide, ht⟩

/-- CV9: a filter of zeros (its byte 0 is listed nowhere) and a zero bias. -/
theorem witness_zero_filter_gives_offset :
    (tiny.set .filtBase 0x2800).ready (.conv true false) = true ∧ (tiny.set .filtBase 0x2800).filtElemConv false 0 0 0 0 = 0 ∧
    (tiny.set .filtBase 0x2800).seed true 0 = 0 ∧
    validPair ((tiny.set .filtBase 0x2800).multElem 0) ((tiny.set .filtBase 0x2800).shiftElem 0) = true ∧
    u32 ((tiny.set .filtBase 0x2800).get .outDim3) = 1 ∧ u32 ((tiny.set .filtBase 0x2800).get .filtDim1) = 1 ∧
    u32 ((tiny.set .filtBase 0x2800).get .filtDim2) = 1 ∧ u32 ((tiny.set .filtBase 0x2800).get .inDim3) = 1 := by decide

/-- CV4, and each other zero dimension of the output. -/
theorem witness_zero_size_output_writes_nothing :
    (tiny.set .outDim1 0).shapesOk (.conv false false) = true ∧ (tiny.set .outDim1 0).BuffersMapped (.conv false false) ∧
    u32 ((tiny.set .outDim1 0).get .outDim1) = 0 ∧ (tiny.set .outDim2 0).shapesOk (.conv false false) = true ∧
    (wr tiny [(.inDim0, 0), (.outDim0, 0)]).shapesOk (.conv false false) = true ∧
    (wr tinyDw [(.depthMult, 0), (.filtDim3, 0), (.outDim3, 0)]).shapesOk (.dwconv false false) = true ∧
    (wr tinyDw [(.depthMult, 0), (.filtDim3, 0), (.outDim3, 0)]).BuffersMapped (.dwconv false false) :=
  ⟨by decide, (State.buffersMapped_conv _ _ _).2 (by decide), by decide, by decide, by decide, by decide,
    (State.buffersMapped_dwconv _ _ _).2 (by decide)⟩

theorem witness_empty_tap_set_leaves_seed :
    u32 ((tiny.set .filtDim1 0).get .filtDim1) = 0 ∧ u32 ((tiny.set .filtDim2 0).get .filtDim2) = 0 ∧
    u32 ((tiny.set .inDim1 0).get .inDim1) = 0 ∧ u32 ((tiny.set .inDim2 0).get .inDim2) = 0 ∧
    u32 ((tiny.set .inDim3 0).get .inDim3) = 0 := by decide

theorem witness_acc_safe_gives_exact_sum :
    tiny.ConvAccSafe true false 0 0 0 0 ∧ s32 ((tiny.set .inOffset 0xFFFFFF00).get .inOffset) = -256 ∧
    s32 ((tiny.set .inOffset 0xFF).get .inOffset) = 255 ∧
    |tiny.seed true 0| + 49152 * (u32 (tiny.get .filtDim1) * u32 (tiny.get .filtDim2) * u32 (tiny.get .inDim3) : Nat) ≤ 2 ^ 31 - 1 ∧
    tinyDw.DwAccSafe true false 0 0 0 0 ∧
    |tinyDw.seed true 0| + 49152 * (u32 (tinyDw.get .filtDim1) * u32 (tinyDw.get .filtDim2) : Nat) ≤ 2 ^ 31 - 1 :=
  ⟨by unfold State.ConvAccSafe; decide, by decide, by decide, by decide, by unfold State.DwAccSafe; decide, by decide⟩

/-- The DWCONV side of a one-channel diagonal pair: its filter is `tiny`'s, its other registers too. -/
theorem witness_diagonal_conv_equals_dwconv :
    tiny.ready (.conv true false) = true ∧ tinyDw.ready (.dwconv true false) = true ∧ tinyDw.mem = tiny.mem ∧
    tinyDw.fresh = tiny.fresh ∧ (∀ r, r ≠ .depthMult → tinyDw.get r = tiny.get r) ∧ u32 (tinyDw.get .depthMult) = 1 ∧
    u32 (tiny.get .outDim3) = u32 (tiny.get .inDim3) ∧
    (∀ oc fy fx ic, oc < u32 (tiny.get .outDim3) → fy < u32 (tiny.get .filtDim1) → fx < u32 (tiny.get .filtDim2) →
      ic < u32 (tiny.get .inDim3) →
      tiny.filtElemConv false oc fy fx ic = if ic = oc then tinyDw.filtElemDw false fy fx oc else 0) := by
  refine ⟨by decide, by decide, rfl, rfl, fun r h => tiny.get_set_ne _ _ _ h, by decide, by decide, fun oc fy fx ic h1 h2 h3 h4 => ?_⟩
  have e1 : u32 (tiny.get .outDim3) = 1 := by decide
  have e2 : u32 (tiny.get .filtDim1) = 1 := by decide
  have e3 : u32 (tiny.get .filtDim2) = 1 := by decide
  have e4 : u32 (tiny.get .inDim3) = 1 := by decide
  obtain ⟨rfl, rfl, rfl, rfl⟩ : oc = 0 ∧ fy = 0 ∧ fx = 0 ∧ ic = 0 := by omega
  decide

/-- A memory that differs from `tiny`'s at a byte no region of the command holds. -/
theorem witness_result_depends_on_sources_only :
    tiny.ready (.conv true false) = true ∧ (tiny.mem.write 0x5000 7).read 0x5000 ≠ tiny.mem.read 0x5000 ∧
    ∀ r ∈ tiny.sourcesOf (.conv true false), ∀ a, r.contains a = true → (tiny.mem.write 0x5000 7).read a = tiny.mem.read a := by
  refine ⟨by decide, by decide, fun r hr a ha => ?_⟩
  have hno : (tiny.sourcesOf (.conv true false)).all (fun r => !r.contains 0x5000) = true := by decide
  have := List.all_eq_true.1 hno r hr
  rw [Memory.read_write, if_neg]
  rintro rfl
  simp [ha] at this

theorem witness_commands_are_idempotent :
    tiny.ready (.conv true false) = true ∧ tiny.PairsValid (.conv true false) ∧ tinyDw.PairsValid (.dwconv true false) ∧
    (qmulState 100 1 0).PairsValid .qmul ∧ ∀ a, tiny.outsideOut a → (tiny.mem.write 0x4000 0xEE).read a = tiny.mem.read a := by
  refine ⟨by decide, fun b oy ox oc h => ?_, fun b oy ox oc h => ?_, ?_, fun a ha => ?_⟩
  · have e : tiny.outDims = { d0 := 1, d1 := 1, d2 := 1, d3 := 1 } := by decide
    simp only [State.isOutput, e] at h
    obtain ⟨rfl, rfl, rfl, rfl⟩ : b = 0 ∧ oy = 0 ∧ ox = 0 ∧ oc = 0 := by omega
    decide
  · have e : tinyDw.outDims = { d0 := 1, d1 := 1, d2 := 1, d3 := 1 } := by decide
    simp only [State.isOutput, e] at h
    obtain ⟨rfl, rfl, rfl, rfl⟩ : b = 0 ∧ oy = 0 ∧ ox = 0 ∧ oc = 0 := by omega
    decide
  · unfold State.PairsValid; decide
  · rw [Memory.read_write, if_neg]
    rintro rfl
    revert ha
    unfold State.outsideOut
    decide

/-- A CONV, a DWCONV and a QMUL in progress, with a store made early. -/
theorem witness_early_stores_do_not_show_after_completion :
    (running tiny 0x11).busy = true ∧ decode ((running tiny 0x11).get .cmd) = .instr (.conv true false) ∧
    (running tiny 0x11).ready (.conv true false) = true ∧ (∃ t, (running tiny 0x11).engineStore 0 = .next t) ∧
    bytesOf 0x4000 1 ((running tiny 0x11).engineStore 0) = [8] ∧
    (running tinyDw 0x12).ready (.dwconv true false) = true ∧ (∃ t, (running tinyDw 0x12).engineStore 0 = .next t) ∧
    (∃ t, (running (qmulState 100 1 0) 0x03).engineStore 0 = .next t) :=
  ⟨by decide, by decide, by decide, exists_of_isNext _ (by decide), by decide, by decide, exists_of_isNext _ (by decide),
    exists_of_isNext _ (by decide)⟩

/-- Output element 0 is stored; there is no output element 1; a QMUL stores its result early; an idle engine, an illegal word and
a command that fails a shape check store nothing. -/
theorem witness_early_store_frame :
    (∃ t, (running tiny 0x11).engineStore 0 = .next t) ∧ (∃ t, (running tiny 0x11).engineStore 1 = .next t) ∧
    0 < (running tiny 0x11).outDims.flatSize ∧ ¬1 < (running tiny 0x11).outDims.flatSize ∧
    (∃ t, (running (qmulState 100 1 0) 0x03).engineStore 0 = .next t) ∧
    (∃ u, (running tiny 0x11).engineTurn = .next u) ∧ bytesOf 0x4000 1 (running tiny 0x11).engineTurn = [8] ∧
    tiny.busy = false ∧ decode ((running tiny 0x41).get .cmd) = .illegal .reservedBits ∧
    (running (tiny.set .outDim0 2) 0x11).shapesOk (.conv true false) = false :=
  ⟨exists_of_isNext _ (by decide), exists_of_isNext _ (by decide), by decide, by decide, exists_of_isNext _ (by decide),
    exists_of_isNext _ (by decide), by decide, by decide, by decide, by decide⟩

theorem witness_register_offsets_are_distinct : Reg.qmResult.offset = Reg.qmResult.offset := rfl

theorem witness_host_writes_respect_busy_and_access :
    (withTurn tiny (.hostWrite 32 0x40000010 5)).nextTurn = .hostWrite 32 (tiny.qceBase + Reg.strideH.offset) 5 ∧
    (withTurn tiny (.hostWrite 32 0x40000010 5)).busy = false ∧
    (withTurn (running tiny 0x11) (.hostWrite 32 0x40000010 5)).busy = true ∧ Reg.strideH.readOnly = false ∧
    (withTurn tiny (.hostWrite 32 0x400000AC 5)).nextTurn = .hostWrite 32 (tiny.qceBase + Reg.qmResult.offset) 5 ∧
    Reg.qmResult.readOnly = true ∧
    (withTurn tiny (.hostRead 32 0x40000004)).nextTurn = .hostRead 32 (tiny.qceBase + Reg.status.offset) := by decide

/-- Reserved offsets at the ends of each range, a misaligned offset, the first address past the window and the last one before
it, an 8-bit access. -/
theorem witness_window_access_rules :
    (withTurn tiny (.hostRead 32 0x4000000C)).nextTurn = .hostRead 32 (tiny.qceBase + 0x0C) ∧
    (withTurn tiny (.hostRead 32 0x400000B0)).nextTurn = .hostRead 32 (tiny.qceBase + 0xB0) ∧
    (withTurn tiny (.hostWrite 32 0x400000FC 1)).nextTurn = .hostWrite 32 (tiny.qceBase + 0xFC) 1 ∧
    Reg.ofOffset 0x0C = none ∧ Reg.ofOffset 0x3C = none ∧ Reg.ofOffset 0x98 = none ∧ Reg.ofOffset 0x9C = none ∧
    Reg.ofOffset 0xB0 = none ∧ Reg.ofOffset 0xFC = none ∧ isNext (step (withTurn tiny (.hostRead 32 0x4000000C))) = true ∧
    tiny.hostAccessOk 32 0x40000002 = false ∧ tiny.hostAccessOk 32 0x40000100 = false ∧ tiny.hostAccessOk 32 0x3FFFFFFC = false ∧
    tiny.hostAccessOk 8 0x40000010 = false := by decide

theorem witness_memory_reads_after_writes : Memory.wf [] = true ∧ 0xFFFFFFFF < 2 ^ 32 ∧ tiny.mem.wf = true := by decide

theorem witness_elements_are_little_endian : 0 < 4 ∧ 3 < 4 ∧ tiny.mem.readLE 0x3000 4 = 0x40000000 := by decide

theorem witness_other_agents_access_mapped_memory :
    tiny.byteMapped (0xFFFFFFFF : Word).toNat = true ∧ (withTurn (running tiny 0x11) (.memWrite 0xFFFFFFFF 7)).busy = true ∧
    0x2000 ∈ ({ withTurn (running tiny 0x11) (.memWrite 0xFFFFFFFF 7) with foreign := [0x2000] } : State).foreign ∧
    (withTurn tiny (.memWrite 0xFFFFFFFF 7)).busy = false ∧
    (withTurn tiny (.memWrite 0xFFFFFFFF 7)).nextTurn = .memWrite 0xFFFFFFFF 7 ∧
    (withTurn tiny (.memRead 0)).nextTurn = .memRead 0 ∧
    ({ tiny with mapped := [{ base := 0x1000, size := 1 }] } : State).byteMapped (0x1001 : Word).toNat = false := by decide

theorem witness_reset_turn_restores_window : (withTurn (running tiny 0x11) .reset).nextTurn = .reset := rfl

theorem witness_step_keeps_invariant : (running tiny 0x11).Inv ∧ ∃ t, step (running tiny 0x11) = .next t :=
  ⟨by unfold State.Inv; decide, exists_of_isNext _ (by decide)⟩

theorem witness_status_fields_are_exclusive : (tiny.raise .eShape).Inv ∧ tiny.complete.Inv := by unfold State.Inv; decide

theorem witness_running_command_freezes_registers :
    (withTurn (running tiny 0x11) (.hostWrite 32 0x40000010 5)).busy = true ∧
    (withTurn (running tiny 0x11) (.hostWrite 32 0x40000010 5)).nextTurn ≠ .reset ∧
    (∃ t, step (withTurn (running tiny 0x11) (.hostWrite 32 0x40000010 5)) = .next t) ∧ ∃ t, step (running tiny 0x11) = .next t :=
  ⟨by decide, by decide, exists_of_isNext _ (by decide), exists_of_isNext _ (by decide)⟩

theorem witness_only_cmd_write_starts_command :
    ∃ t, (withTurn tiny (.hostWrite 32 0x40000000 0x11)).busy = false ∧ step (withTurn tiny (.hostWrite 32 0x40000000 0x11)) = .next t ∧
      t.busy = true :=
  ⟨tiny.popTurn.launch 0x11, by decide, rfl, by decide⟩

theorem witness_engine_turn_ends_command :
    (running tiny 0x11).busy = true ∧ (running tiny 0x11).nextTurn = .engine ∧ statusOf (step (running tiny 0x11)) = some 2 ∧
    statusOf (step (running (tiny.set .outDim0 2) 0x11)) = some 0x104 ∧ statusOf (step (running tiny 0x07)) = some 0x304 := by decide

/-- A byte of `OUT` written by the engine, and a byte written by another agent. -/
theorem witness_memory_changes_only_inside_output :
    bytesOf 0x4000 1 (step (running tiny 0x11)) = [8] ∧ (running tiny 0x11).mem.read 0x4000 = 0 ∧
    bytesOf 0x5000 1 (step (withTurn tiny (.memWrite 0x5000 7))) = [7] ∧ tiny.mem.read 0x5000 = 0 := by decide

end Sys2Proof.Tests
end

section
/-! The data memory (spec/00_scope.md R6; spec/20_memory.md R40, R45). -/

namespace Sys2Proof.Machine

/-- Settles O38: the read-after-write law of a store, and a store keeps the canonical form.  Both inductions over the
memory's entries stand behind `Memory.read_write` and `Memory.wf_write`. -/
theorem memoryReadsAfterWrites : Obligations.MemoryReadsAfterWrites := by
  intro m a b
  constructor
  · intro a'
    exact Memory.read_write m a a' b
  · intro hm ha
    exact Memory.wf_write m a b hm ha

end Sys2Proof.Machine
end

section
/-! The register window: the offsets of its registers and of its gaps (spec/10_state.md R12, R13). -/

namespace Sys2Proof.Machine

theorem Reg.offset_aligned (r : Reg) : r.offset % 4 = 0 ∧ r.offset < 0x100 := by
  cases r <;> decide

theorem Reg.offset_injective (r q : Reg) (h : r.offset = q.offset) : r = q := by
  have hr := r.ofOffset_offset
  rw [h, q.ofOffset_offset] at hr
  exact (Option.some.inj hr).symm

/-- The offsets of R13 that no register has. -/
def reservedOffset (offset : Nat) : Prop :=
  offset = 0x0C ∨ offset = 0x3C ∨ offset = 0x98 ∨ offset = 0x9C ∨ (0xB0 ≤ offset ∧ offset ≤ 0xFC ∧ offset % 4 = 0)

theorem Reg.offset_not_reserved (r : Reg) : ¬reservedOffset r.offset := by
  unfold reservedOffset
  cases r <;> decide

theorem Reg.ofOffset_of_reserved (offset : Nat) (h : reservedOffset offset) : Reg.ofOffset offset = none := by
  cases hr : Reg.ofOffset offset with
  | none => rfl
  | some r =>
    rw [← Reg.offset_of_ofOffset _ _ hr] at h
    exact absurd h r.offset_not_reserved

theorem reservedOffset_aligned (offset : Nat) (h : reservedOffset offset) : offset % 4 = 0 ∧ offset < 0x100 := by
  unfold reservedOffset at h
  omega

theorem Reg.readOnly_iff (r : Reg) : r.readOnly = true ↔ r = .status ∨ r = .qmResult := by
  simp [Reg.readOnly]

/-- Settles O35: a register is found at its offset, so no two share one. -/
theorem registerOffsetsAreDistinct : Obligations.RegisterOffsetsAreDistinct :=
  ⟨fun r => ⟨r.ofOffset_offset, r.offset_aligned⟩, Reg.offset_injective⟩

/-! ### Accesses of the host to the window (R13, R14) -/

theorem State.hostAccessOk_base (s : State) (offset : Nat) (h : offset % 4 = 0 ∧ offset < 0x100) :
    s.hostAccessOk 32 (s.qceBase + offset) = true :=
  (s.hostAccessOk_iff _ _).2 ⟨rfl, offset, rfl, h⟩

/-- An aligned 32-bit write inside the window, at any time. -/
theorem State.hostWrite_base (s : State) (offset : Nat) (v : Word) (h : offset % 4 = 0 ∧ offset < 0x100) :
    s.hostWrite 32 (s.qceBase + offset) v = .next (if s.busy then s else s.writeOffset offset v) := by
  rw [State.hostWrite, if_pos (s.hostAccessOk_base offset h), s.windowOffset_base]

/-- An aligned 32-bit read inside the window. -/
theorem State.hostRead_base (s : State) (offset : Nat) (h : offset % 4 = 0 ∧ offset < 0x100) :
    s.hostRead 32 (s.qceBase + offset) = .next { s with readData := s.readOffset offset } := by
  rw [State.hostRead, if_pos (s.hostAccessOk_base offset h), s.windowOffset_base]

/-- A write to a register while the engine is idle: `CMD` launches, a read-only register ignores it. -/
theorem State.writeOffset_offset (s : State) (r : Reg) (v : Word) :
    s.writeOffset r.offset v = if r = .cmd then s.launch v else if r.readOnly then s else s.set r v := by
  simp only [State.writeOffset, r.ofOffset_offset]

theorem State.writeOffset_of_reserved (s : State) (offset : Nat) (v : Word) (h : reservedOffset offset) :
    s.writeOffset offset v = s := by
  simp only [State.writeOffset, Reg.ofOffset_of_reserved offset h]

theorem State.readOffset_offset (s : State) (r : Reg) : s.readOffset r.offset = s.get r := by
  simp only [State.readOffset, r.ofOffset_offset]

theorem State.readOffset_of_reserved (s : State) (offset : Nat) (h : reservedOffset offset) :
    s.readOffset offset = 0 := by
  simp only [State.readOffset, Reg.ofOffset_of_reserved offset h]

/-- A step whose turn is the host's write. -/
theorem step_hostWrite (s : State) (width addr : Nat) (v : Word) (h : s.nextTurn = .hostWrite width addr v) :
    step s = s.popTurn.hostWrite width addr v := by
  rw [step, h]; rfl

/-- A step whose turn is the host's read. -/
theorem step_hostRead (s : State) (width addr : Nat) (h : s.nextTurn = .hostRead width addr) :
    step s = s.popTurn.hostRead width addr := by
  rw [step, h]; rfl

/-- A step that writes an offset of the window. -/
theorem step_hostWrite_base (s : State) (offset : Nat) (v : Word) (ho : offset % 4 = 0 ∧ offset < 0x100)
    (h : s.nextTurn = .hostWrite 32 (s.qceBase + offset) v) :
    step s = .next (if s.busy then s.popTurn else s.popTurn.writeOffset offset v) := by
  rw [step_hostWrite _ _ _ _ h, ← s.popTurn_qceBase, s.popTurn.hostWrite_base offset v ho, s.popTurn_busy]

/-- A step that reads an offset of the window. -/
theorem step_hostRead_base (s : State) (offset : Nat) (ho : offset % 4 = 0 ∧ offset < 0x100)
    (h : s.nextTurn = .hostRead 32 (s.qceBase + offset)) :
    step s = .next { s.popTurn with readData := s.popTurn.readOffset offset } := by
  rw [step_hostRead _ _ _ h, ← s.popTurn_qceBase, s.popTurn.hostRead_base offset ho]

/-- An idle write of a register that the host may write puts all 32 bits there; only that of `CMD` does more. -/
theorem State.writeOffset_writable (s : State) (r : Reg) (v : Word) (hr : r.readOnly = false) :
    (s.writeOffset r.offset v).get r = v ∧
    (r ≠ .cmd → ∀ q, q ≠ r → (s.writeOffset r.offset v).get q = s.get q) ∧
    (s.writeOffset r.offset v).mem = s.mem := by
  rw [s.writeOffset_offset]
  by_cases hc : r = .cmd
  · subst hc
    exact ⟨by simp [State.launch_get], fun h => absurd rfl h, rfl⟩
  · rw [if_neg hc, hr]
    exact ⟨s.get_set_self r v, fun _ q hq => s.get_set_ne r q v hq, rfl⟩

/-- Settles O36: the host's write at a register's offset, split by `BUSY` and by the register's access. -/
theorem hostWritesRespectBusyAndAccess : Obligations.HostWritesRespectBusyAndAccess := by
  intro s r v
  have ho := r.offset_aligned
  refine ⟨fun h hb => ?_, fun h hb hr => ?_, fun h hb hr => ?_, r.readOnly_iff, fun h => ?_⟩
  · rw [step_hostWrite_base s _ v ho h, if_pos hb]
  · refine ⟨s.popTurn.writeOffset r.offset v, ?_, s.popTurn.writeOffset_writable r v hr⟩
    rw [step_hostWrite_base s _ v ho h, hb]; rfl
  · have hc : r ≠ .cmd := by rintro rfl; cases hr
    rw [step_hostWrite_base s _ v ho h, hb, s.popTurn.writeOffset_offset, if_neg hc, if_pos hr]; rfl
  · exact ⟨_, step_hostRead_base s _ ho h, s.popTurn.readOffset_offset r⟩

/-- Settles O37: no register stands at a reserved offset, and an access the window does not answer is refused. -/
theorem windowAccessRules : Obligations.WindowAccessRules := by
  intro s width addr offset v reserved
  refine ⟨fun (hr : reservedOffset offset) h => ?_, fun (hr : reservedOffset offset) h => ?_, fun h t ht => ?_,
    fun hbad => ?_⟩
  · exact ⟨_, step_hostRead_base s _ (reservedOffset_aligned _ hr) h, s.popTurn.readOffset_of_reserved _ hr⟩
  · rw [step_hostWrite_base s _ v (reservedOffset_aligned _ hr) h, s.popTurn.writeOffset_of_reserved _ v hr, ite_self]
  · rw [step_hostRead _ _ _ h] at ht
    obtain ⟨-, rfl⟩ := s.popTurn.hostRead_next t _ _ ht
    exact ⟨rfl, rfl⟩
  · have hno : ¬s.popTurn.hostAccessOk width addr = true := fun h => hbad ((s.popTurn.hostAccessOk_iff _ _).1 h)
    refine ⟨fun h => ?_, fun h => ?_⟩
    · rw [step_hostRead _ _ _ h, State.hostRead, if_neg hno]
    · rw [step_hostWrite _ _ _ _ h, State.hostWrite, if_neg hno]

end Sys2Proof.Machine
end

section
/-! What a command changes and what it leaves (spec/10_state.md R25; spec/20_memory.md R50). -/

namespace Sys2Proof.Machine

/-- A command changes no register but `STATUS`, and of `QM_RESULT` only when it is QMUL. -/
theorem exec_get (i : Instr) (s t : State) (h : exec i s = .next t) (r : Reg) (hr : r ≠ .status)
    (hq : i = .qmul → r ≠ .qmResult) : t.get r = s.get r := by
  rcases exec_next i s t h with ⟨-, rfl⟩ | ⟨hi, rfl⟩ | ⟨-, -, f, rfl⟩
  · rw [s.raise_get, if_neg hr]
  · exact (s.storeQmul.complete_get r).trans (by rw [if_neg hr, s.storeQmul_get_ne r (hq hi)])
  · exact (s.complete_get r).trans (if_neg hr)

/-- A command writes no byte outside region `OUT`. -/
theorem exec_mem_outside (i : Instr) (s t : State) (h : exec i s = .next t) (a : Nat) (ha : s.outsideOut a) :
    t.mem.read a = s.mem.read a := by
  rcases exec_next i s t h with ⟨-, rfl⟩ | ⟨-, rfl⟩ | ⟨-, -, f, rfl⟩
  · rfl
  · rfl
  · exact s.read_outside f a ha

/-- `STATUS` of a completed command, whatever it has stored. -/
theorem State.completed_status (s : State) (m : Memory) (n : Nat) :
    State.get { s.complete with mem := m, fresh := n } .status = statusDone := s.complete_get .status

/-- A command that is QMUL, or that is rejected, writes no byte. -/
theorem exec_mem_eq (i : Instr) (s t : State) (h : exec i s = .next t) (hn : i = .qmul ∨ t.get .status ≠ statusDone) :
    t.mem = s.mem := by
  rcases exec_next i s t h with ⟨-, rfl⟩ | ⟨-, rfl⟩ | ⟨hi, -, f, rfl⟩
  · rfl
  · rfl
  · exact absurd (s.completed_status _ _) (hn.resolve_left hi)

/-- A command leaves the platform's parameters, the agenda and the answer of the last read. -/
theorem exec_surroundings (i : Instr) (s t : State) (h : exec i s = .next t) :
    t.mapped = s.mapped ∧ t.qceBase = s.qceBase ∧ t.agenda = s.agenda ∧ t.readData = s.readData := by
  rcases exec_next i s t h with ⟨-, rfl⟩ | ⟨-, rfl⟩ | ⟨-, -, f, rfl⟩ <;> exact ⟨rfl, rfl, rfl, rfl⟩

/-- Settles O23: the frame of `exec`, for a command that is not QMUL. -/
theorem tensorFrame : Obligations.TensorFrame := by
  intro s t i hi h
  refine ⟨fun r hr => exec_get i s t h r hr fun hq => absurd hq hi, exec_mem_outside i s t h, fun hst a => ?_,
    exec_surroundings i s t h⟩
  rw [exec_mem_eq i s t h (.inr hst)]

/-- Settles O16: the frame of `exec`, for QMUL, which writes no byte. -/
theorem qmulFrame : Obligations.QmulFrame := by
  intro s t h
  refine ⟨fun r hr hq => exec_get .qmul s t h r hr fun _ => hq, fun a => ?_, exec_surroundings .qmul s t h⟩
  rw [exec_mem_eq .qmul s t h (.inl rfl)]

end Sys2Proof.Machine
end

section
/-! What one turn of one agent changes (spec/10_state.md R14, R25; spec/20_memory.md R50, R61). -/

namespace Sys2Proof.Machine

theorem State.engineTurn_get (s t : State) (h : s.engineTurn = .next t) (r : Reg) (hr : r ≠ .status) (hq : r ≠ .qmResult) :
    t.get r = s.get r := by
  rcases s.engineTurn_next t h with ⟨-, rfl⟩ | ⟨-, -, rfl⟩ | ⟨-, i, -, he⟩
  · rfl
  · rw [s.raise_get, if_neg hr]
  · exact exec_get i s t he r hr fun _ => hq

theorem State.engineStore_get (s t : State) (k : Nat) (h : s.engineStore k = .next t) (r : Reg) (hq : r ≠ .qmResult) :
    t.get r = s.get r := by
  rcases s.engineStore_next t k h with rfl | ⟨-, -, rfl⟩ | ⟨-, -, -, -, b, rfl⟩
  · rfl
  · exact s.storeQmul_get_ne r hq
  · rfl

/-- A host write while the engine runs is discarded. -/
theorem State.hostWrite_busy (s t : State) (width addr : Nat) (v : Word) (hb : s.busy = true)
    (h : s.hostWrite width addr v = .next t) : t = s := by
  rcases (s.hostWrite_next t _ _ _ h).2 with rfl | ⟨hidle, -⟩ | ⟨hidle, -⟩
  · rfl
  · rw [hb] at hidle; cases hidle
  · rw [hb] at hidle; cases hidle

/-- While a command runs, no agent's turn but a reset changes a register other than `STATUS` and `QM_RESULT`. -/
theorem State.takeTurn_get_of_busy (s t : State) (turn : Turn) (hb : s.busy = true) (hturn : turn ≠ .reset)
    (h : s.takeTurn turn = .next t) (r : Reg) (hr : r ≠ .status) (hq : r ≠ .qmResult) : t.get r = s.get r := by
  cases turn with
  | engine => exact s.engineTurn_get t h r hr hq
  | engineStore k => exact s.engineStore_get t k h r hq
  | hostWrite width addr v => rw [s.hostWrite_busy t _ _ _ hb h]
  | hostRead width addr => obtain ⟨-, rfl⟩ := s.hostRead_next t _ _ h; rfl
  | memWrite addr b => obtain ⟨-, rfl⟩ := s.foreignWrite_next t _ _ h; rfl
  | memRead addr => obtain ⟨-, rfl⟩ := s.foreignRead_next t _ h; rfl
  | reset => exact absurd rfl hturn

/-- Settles O46: the turn is taken in the state with the agenda's first turn off, which runs the same command. -/
theorem runningCommandFreezesRegisters : Obligations.RunningCommandFreezesRegisters := by
  intro s t hb hturn h r hr hq
  exact s.popTurn.takeTurn_get_of_busy t s.nextTurn hb hturn h r hr hq

/-- The engine's turn writes a byte only of `OUT`, and only while it runs a command. -/
theorem State.engineTurn_mem (s t : State) (h : s.engineTurn = .next t) (a : Nat) (ha : t.mem.read a ≠ s.mem.read a) :
    s.busy = true ∧ ¬s.outsideOut a := by
  rcases s.engineTurn_next t h with ⟨-, rfl⟩ | ⟨-, -, rfl⟩ | ⟨hb, i, -, he⟩
  · exact absurd rfl ha
  · exact absurd rfl ha
  · exact ⟨hb, fun hout => ha (exec_mem_outside i s t he a hout)⟩

theorem State.not_outsideOut_iff (s : State) (a : Nat) :
    ¬s.outsideOut a ↔ ∃ k, k < s.outDims.flatSize ∧ a = u32 (s.get .outBase) + k := by
  refine ⟨fun h => ?_, fun ⟨k, hk, ha⟩ => ?_⟩
  · obtain ⟨hlo, hhi⟩ := not_not.1 h
    exact ⟨a - u32 (s.get .outBase), Nat.sub_lt_left_of_lt_add hlo hhi, (Nat.add_sub_cancel' hlo).symm⟩
  · exact ha ▸ not_not_intro ⟨Nat.le_add_right _ _, Nat.add_lt_add_left hk _⟩

/-- So does an early store: it writes the address of an output element. -/
theorem State.engineStore_mem (s t : State) (k : Nat) (h : s.engineStore k = .next t) (a : Nat)
    (ha : t.mem.read a ≠ s.mem.read a) : s.busy = true ∧ ¬s.outsideOut a := by
  rcases s.engineStore_next t k h with rfl | ⟨-, -, rfl⟩ | ⟨hb, -, hk, -, b, rfl⟩
  · exact absurd rfl ha
  · exact absurd rfl ha
  · have hak : a = s.outAddr k := by
      by_contra hne
      exact ha ((s.mem.read_write _ a b).trans (if_neg hne))
    exact ⟨hb, (s.not_outsideOut_iff a).2 ⟨k, hk, hak⟩⟩

/-- A host write of the window leaves the memory and the platform's parameters. -/
theorem State.hostWrite_surroundings (s t : State) (width addr : Nat) (v : Word) (h : s.hostWrite width addr v = .next t) :
    t.mem = s.mem ∧ t.mapped = s.mapped ∧ t.qceBase = s.qceBase := by
  rcases (s.hostWrite_next t _ _ _ h).2 with rfl | ⟨-, -, rfl⟩ | ⟨-, r, -, -, -, rfl⟩ <;> exact ⟨rfl, rfl, rfl⟩

/-- Which bytes an agent's turn can change. -/
theorem State.takeTurn_mem (s t : State) (turn : Turn) (h : s.takeTurn turn = .next t) (a : Nat)
    (ha : t.mem.read a ≠ s.mem.read a) :
    (∃ addr b, turn = .memWrite addr b ∧ addr.toNat = a) ∨ (s.busy = true ∧ ¬s.outsideOut a) := by
  cases turn with
  | engine => exact .inr (s.engineTurn_mem t h a ha)
  | engineStore k => exact .inr (s.engineStore_mem t k h a ha)
  | hostWrite width addr v => exact absurd (by rw [(s.hostWrite_surroundings t _ _ _ h).1]) ha
  | hostRead width addr => obtain ⟨-, rfl⟩ := s.hostRead_next t _ _ h; exact absurd rfl ha
  | memWrite addr b =>
    obtain ⟨-, rfl⟩ := s.foreignWrite_next t _ _ h
    refine .inl ⟨addr, b, rfl, ?_⟩
    by_contra hne
    exact ha ((s.mem.read_write _ a b).trans (if_neg (Ne.symm hne)))
  | memRead addr => obtain ⟨-, rfl⟩ := s.foreignRead_next t _ h; exact absurd rfl ha
  | reset => cases h; exact absurd rfl ha

theorem State.engineTurn_platform (s t : State) (h : s.engineTurn = .next t) :
    t.mapped = s.mapped ∧ t.qceBase = s.qceBase := by
  rcases s.engineTurn_next t h with ⟨-, rfl⟩ | ⟨-, -, rfl⟩ | ⟨-, i, -, he⟩
  · exact ⟨rfl, rfl⟩
  · exact ⟨rfl, rfl⟩
  · obtain ⟨hmapped, hbase, -⟩ := exec_surroundings i s t he
    exact ⟨hmapped, hbase⟩

/-- No agent's turn changes a parameter of the platform. -/
theorem State.takeTurn_platform (s t : State) (turn : Turn) (h : s.takeTurn turn = .next t) :
    t.mapped = s.mapped ∧ t.qceBase = s.qceBase := by
  cases turn with
  | engine => exact s.engineTurn_platform t h
  | engineStore k =>
    rcases s.engineStore_next t k h with rfl | ⟨-, -, rfl⟩ | ⟨-, -, -, -, b, rfl⟩ <;> exact ⟨rfl, rfl⟩
  | hostWrite width addr v => exact (s.hostWrite_surroundings t _ _ _ h).2
  | hostRead width addr => obtain ⟨-, rfl⟩ := s.hostRead_next t _ _ h; exact ⟨rfl, rfl⟩
  | memWrite addr b => obtain ⟨-, rfl⟩ := s.foreignWrite_next t _ _ h; exact ⟨rfl, rfl⟩
  | memRead addr => obtain ⟨-, rfl⟩ := s.foreignRead_next t _ h; exact ⟨rfl, rfl⟩
  | reset => cases h; exact ⟨rfl, rfl⟩

/-- Settles O49: the bytes and the parameters of the platform, over the turn taken. -/
theorem memoryChangesOnlyInsideOutput : Obligations.MemoryChangesOnlyInsideOutput := by
  intro s t h
  obtain ⟨hmapped, hbase⟩ := s.popTurn.takeTurn_platform t s.nextTurn h
  exact ⟨hmapped, hbase, s.popTurn.takeTurn_mem t s.nextTurn h⟩

end Sys2Proof.Machine
end

section
/-! The invariant: canonical memory and a legal `STATUS` (spec/10_state.md R16, R26; spec/20_memory.md R40, R50). -/

namespace Sys2Proof.Machine

/-- Settles O41, register by register. -/
theorem resetRegisterValues : Obligations.ResetRegisterValues :=
  ⟨fun r => by cases r <;> rfl, rfl⟩

theorem Window.reset_status_mem : Window.reset.get .status ∈ statusValues := by decide
theorem statusBusy_mem : statusBusy ∈ statusValues := by decide
theorem statusDone_mem : statusDone ∈ statusValues := by decide
theorem statusError_mem (e : ErrorCode) (he : e ≠ .eResource) : statusError e ∈ statusValues := by
  cases e with
  | eShape => decide
  | eResource => exact absurd rfl he
  | eCmd => decide

/-- Settles O43: no byte is listed, and `STATUS` is 0. -/
theorem resetMeetsInvariant : Obligations.ResetMeetsInvariant :=
  ⟨rfl, Window.reset_status_mem⟩

/-- The five legal values of `STATUS` have exclusive flags, no `ECODE` without `ERROR`, and reserved bits 0. -/
theorem statusValues_fields (w : Word) (hw : w ∈ statusValues) :
    (statusBusyBit w && statusDoneBit w) = false ∧ (statusBusyBit w && statusErrorBit w) = false ∧
    (statusDoneBit w && statusErrorBit w) = false ∧ (statusErrorBit w = false → statusEcode w = 0) ∧
    w.extractLsb' 3 5 = 0 ∧ w.extractLsb' 12 20 = 0 := by
  simp only [statusValues, List.mem_cons, List.not_mem_nil, or_false] at hw
  rcases hw with rfl | rfl | rfl | rfl | rfl <;> decide

/-- Settles O45: the invariant names the values of `STATUS`. -/
theorem statusFieldsAreExclusive : Obligations.StatusFieldsAreExclusive :=
  fun s hs => statusValues_fields (s.get .status) hs.2

/-- The invariant of a state after a rejection this hardware makes. -/
theorem State.raise_inv (s : State) (e : ErrorCode) (he : e ≠ .eResource) (hm : s.mem.wf = true) : (s.raise e).Inv :=
  ⟨hm, by rw [s.raise_get, if_pos rfl]; exact statusError_mem e he⟩

/-- The walk over the output keeps the canonical form, since a mapped region `OUT` does not wrap. -/
theorem State.wf_storeRange_of_mapped (s : State) (hasBias : Bool) (filtSize : Nat) (f : Nat → Byte) (hm : s.mem.wf = true)
    (h : s.buffersMapped hasBias filtSize = true) :
    (s.mem.storeRange (s.outAddr 0) s.outDims.flatSize f).wf = true := by
  rcases s.out_le_of_mapped hasBias filtSize h with h0 | hle
  · rw [h0]; exact hm
  · exact Memory.wf_storeRange _ _ _ f hm hle

/-- The invariant of a state in which a command has completed with memory `m`. -/
theorem State.complete_inv (s : State) (m : Memory) (n : Nat) (hm : m.wf = true) :
    State.Inv { s.complete with mem := m, fresh := n } :=
  ⟨hm, s.completed_status m n ▸ statusDone_mem⟩

theorem exec_keeps_inv (i : Instr) (s t : State) (hm : s.mem.wf = true) (h : exec i s = .next t) : t.Inv := by
  cases i with
  | conv hasBias usgn =>
    rcases execConv_next hasBias usgn s t h with ⟨-, rfl⟩ | ⟨-, hmap, rfl⟩
    · exact s.raise_inv .eShape (by decide) hm
    · exact s.complete_inv _ _ (s.wf_storeRange_of_mapped hasBias _ _ hm hmap)
  | dwconv hasBias usgn =>
    rcases execDwconv_next hasBias usgn s t h with ⟨-, rfl⟩ | ⟨-, hmap, rfl⟩
    · exact s.raise_inv .eShape (by decide) hm
    · exact s.complete_inv _ _ (s.wf_storeRange_of_mapped hasBias _ _ hm hmap)
  | qmul => cases h; exact s.storeQmul.complete_inv s.mem _ hm

theorem State.engineTurn_keeps_inv (s t : State) (hs : s.Inv) (h : s.engineTurn = .next t) : t.Inv := by
  rcases s.engineTurn_next t h with ⟨-, rfl⟩ | ⟨-, -, rfl⟩ | ⟨-, i, -, he⟩
  · exact hs
  · exact s.raise_inv .eCmd (by decide) hs.1
  · exact exec_keeps_inv i s t hs.1 he

theorem State.engineStore_keeps_inv (s t : State) (k : Nat) (hs : s.Inv) (h : s.engineStore k = .next t) : t.Inv := by
  obtain ⟨hm, hst⟩ := hs
  refine ⟨?_, by rwa [s.engineStore_get t k h .status (by decide)]⟩
  rcases s.engineStore_next t k h with rfl | ⟨-, -, rfl⟩ | ⟨-, -, -, hlt, b, rfl⟩
  · exact hm
  · exact hm
  · exact Memory.wf_write _ _ b hm hlt

theorem State.hostWrite_keeps_inv (s t : State) (width addr : Nat) (v : Word) (hs : s.Inv)
    (h : s.hostWrite width addr v = .next t) : t.Inv := by
  obtain ⟨hm, hst⟩ := hs
  rcases (s.hostWrite_next t _ _ _ h).2 with rfl | ⟨-, -, rfl⟩ | ⟨-, r, -, -, hro, rfl⟩
  · exact ⟨hm, hst⟩
  · exact ⟨hm, by rw [s.launch_get, if_pos rfl]; exact statusBusy_mem⟩
  · have hr : Reg.status ≠ r := by rintro rfl; cases hro
    exact ⟨hm, by rwa [s.get_set_ne r .status v hr]⟩

/-- Every agent's turn keeps the invariant. -/
theorem State.takeTurn_keeps_inv (s t : State) (turn : Turn) (hs : s.Inv) (h : s.takeTurn turn = .next t) : t.Inv := by
  cases turn with
  | engine => exact s.engineTurn_keeps_inv t hs h
  | engineStore k => exact s.engineStore_keeps_inv t k hs h
  | hostWrite width addr v => exact s.hostWrite_keeps_inv t width addr v hs h
  | hostRead width addr => obtain ⟨-, rfl⟩ := s.hostRead_next t _ _ h; exact hs
  | memWrite addr b =>
    obtain ⟨-, rfl⟩ := s.foreignWrite_next t _ _ h
    exact ⟨Memory.wf_write _ _ b hs.1 addr.isLt, hs.2⟩
  | memRead addr => obtain ⟨-, rfl⟩ := s.foreignRead_next t _ h; exact hs
  | reset => cases h; exact ⟨hs.1, Window.reset_status_mem⟩

/-- Settles O44: the state with the turn taken off meets the invariant as `s` does, and the turn keeps it. -/
theorem stepKeepsInvariant : Obligations.StepKeepsInvariant := by
  intro s t hs h
  exact s.popTurn.takeTurn_keeps_inv t s.nextTurn hs h

end Sys2Proof.Machine
end
section
/-! The same command launched again (spec/10_state.md R25). -/

namespace Sys2Proof.Machine

/-- The byte the rules give output element `k` of a command; QMUL has no output element. -/
def State.ruleByte (s : State) (i : Instr) (k : Nat) : Byte :=
  match i with
  | .conv hasBias usgn => s.convByte hasBias usgn k
  | .dwconv hasBias usgn => s.dwByte hasBias usgn k
  | .qmul => 0

theorem State.buffersMapped_of_premises (s : State) (hasBias : Bool) (filtSize : Nat)
    (h : s.premises hasBias filtSize = true) : s.buffersMapped hasBias filtSize = true := by
  simp only [State.premises, Bool.and_eq_true] at h
  exact h.1.1.1

/-- A ready CONV or DWCONV completes, and output element `k` has the byte the rules give it. -/
theorem exec_of_ready (s : State) (i : Instr) (hi : i ≠ .qmul) (h : s.ready i = true) :
    ∃ f : Nat → Byte, (∀ k, k < s.outDims.flatSize → f k = s.ruleByte i k) ∧
      exec i s = .next
        { s.complete with
          mem := s.mem.storeRange (s.outAddr 0) s.outDims.flatSize f
          fresh := s.fresh + s.outDims.flatSize } := by
  cases i with
  | conv hasBias usgn =>
    obtain ⟨hv, hp⟩ := Bool.and_eq_true_iff.1 h
    refine ⟨_, fun k hk => s.storedByte_of_premises hasBias _ (s.convByte hasBias usgn) hp k hk, ?_⟩
    exact (if_pos hv).trans (s.runTensor_of_mapped hasBias _ _ (s.buffersMapped_of_premises _ _ hp))
  | dwconv hasBias usgn =>
    obtain ⟨hv, hp⟩ := Bool.and_eq_true_iff.1 h
    refine ⟨_, fun k hk => s.storedByte_of_premises hasBias _ (s.dwByte hasBias usgn) hp k hk, ?_⟩
    exact (if_pos hv).trans (s.runTensor_of_mapped hasBias _ _ (s.buffersMapped_of_premises _ _ hp))
  | qmul => exact absurd rfl hi

/-- The byte the rules give an output element is fixed by the registers, the counter and the source bytes. -/
theorem State.ruleByte_agree {s t : State} (i : Instr) (hv : s.shapesOk i = true) (h : s.AgreeOn t (s.sourcesOf i)) (k : Nat)
    (hk : k < s.outDims.flatSize) : t.ruleByte i k = s.ruleByte i k := by
  cases i with
  | conv hasBias usgn => exact State.convByte_agree hasBias usgn hv h k hk
  | dwconv hasBias usgn => exact State.dwByte_agree hasBias usgn hv h k hk
  | qmul => rfl

/-- Inside `Dom` the primitive draws no free value. -/
theorem deliver_of_inDom (acc m s : Int) (k : Nat) (h : inDom acc m s = true) : deliver acc m s k = qMul acc m s :=
  if_pos h

theorem State.clamped_fresh (s : State) (n : Nat) (acc : Int) (oc k : Nat)
    (h : inDom acc (s.multElem oc) (s.shiftElem oc) = true) :
    ({ s with fresh := n }).clamped acc oc k = s.clamped acc oc k := by
  have hm : ({ s with fresh := n }).multElem oc = s.multElem oc := rfl
  have hs : ({ s with fresh := n }).shiftElem oc = s.shiftElem oc := rfl
  simp only [State.clamped, hm, hs, deliver_of_inDom _ _ _ _ h, State.get_mk, State.win_get]

/-- An output element has coordinates inside the output shape. -/
theorem State.isOutput_coords (s : State) (k : Nat) (hk : k < s.outDims.flatSize) (b oy ox oc : Nat)
    (h : s.outDims.coords k = (b, oy, ox, oc)) : s.isOutput b oy ox oc := by
  have := s.outDims.coords_lt k hk
  rwa [h] at this

/-- With every triple in `Dom` the counter of free values has no say in a byte that a command stores. -/
theorem State.ruleByte_fresh (s : State) (i : Instr) (n : Nat) (hp : s.PairsValid i) (k : Nat)
    (hk : k < s.outDims.flatSize) : ({ s with fresh := n }).ruleByte i k = s.ruleByte i k := by
  rcases hc : s.outDims.coords k with ⟨b, oy, ox, oc⟩
  have ho := s.isOutput_coords k hk b oy ox oc hc
  have elem : ∀ acc : Nat → Nat → Nat → Nat → Int,
      inDom (acc b oy ox oc) (s.multElem oc) (s.shiftElem oc) = true →
      ({ s with fresh := n }).elemByte acc k = s.elemByte acc k := fun acc hacc => by
    have hc' : ({ s with fresh := n }).outDims.coords k = (b, oy, ox, oc) := hc
    simp only [State.elemByte, hc, hc', s.clamped_fresh n _ oc k hacc]
  cases i with
  | conv hasBias usgn => exact elem (s.convAcc hasBias usgn) (hp b oy ox oc ho)
  | dwconv hasBias usgn => exact elem (s.dwAcc hasBias usgn) (hp b oy ox oc ho)
  | qmul => rfl

theorem State.outsideOut_of_premises (s : State) (hasBias : Bool) (filtSize : Nat) (h : s.premises hasBias filtSize = true)
    (r : Region) (hr : r ∈ s.sourceRegions hasBias filtSize) (a : Nat) (ha : r.contains a = true) : s.outsideOut a := by
  simp only [State.premises, State.noAlias, Bool.and_eq_true, List.all_eq_true] at h
  have hout := r.not_contains_of_disjoint _ (h.1.1.2 r hr) a ha
  rwa [Region.contains_iff] at hout

/-- A byte of a source region of a ready command is not in region `OUT`. -/
theorem State.outsideOut_of_source (s : State) (i : Instr) (h : s.ready i = true) (r : Region) (hr : r ∈ s.sourcesOf i)
    (a : Nat) (ha : r.contains a = true) : s.outsideOut a := by
  cases i with
  | conv hasBias usgn => exact s.outsideOut_of_premises _ _ (Bool.and_eq_true_iff.1 h).2 r hr a ha
  | dwconv hasBias usgn => exact s.outsideOut_of_premises _ _ (Bool.and_eq_true_iff.1 h).2 r hr a ha
  | qmul => cases hr

/-- A command that has completed is launched again with the word `w`; the memory is now `m`, the counter `n`. -/
def State.relaunched (s : State) (w : Word) (m : Memory) (n : Nat) : State :=
  { s.complete.launch w with mem := m, fresh := n }

theorem State.relaunched_get (s : State) (w : Word) (m : Memory) (n : Nat) (r : Reg) (hs : r ≠ .status) (hc : r ≠ .cmd) :
    (s.relaunched w m n).get r = s.get r := by
  refine (s.complete.launch_get w r).trans ?_
  rw [if_neg hs, if_neg hc, s.complete_get, if_neg hs]

theorem State.relaunched_premises (s : State) (w : Word) (m : Memory) (n : Nat) (hasBias : Bool) (filtSize : Nat)
    (h : s.premises hasBias filtSize = true) : (s.relaunched w m n).premises hasBias filtSize = true := by
  simp only [State.premises, Bool.and_eq_true] at h ⊢
  obtain ⟨⟨⟨hmap, halias⟩, -⟩, -⟩ := h
  have hnone : (s.relaunched w m n).foreign = [] := rfl
  refine ⟨⟨⟨hmap, halias⟩, ?_⟩, ?_⟩
  · simp [State.sourcesStable, hnone]
  · simp [State.outputsDisjoint, hnone]

/-- A command that was ready is ready when it is launched again: `foreign` is empty, and the checks read neither `CMD`,
`STATUS` nor memory. -/
theorem State.relaunched_ready (s : State) (w : Word) (m : Memory) (n : Nat) (i : Instr) (h : s.ready i = true) :
    (s.relaunched w m n).ready i = true := by
  cases i with
  | conv hasBias usgn =>
    obtain ⟨hv, hp⟩ := Bool.and_eq_true_iff.1 h
    exact Bool.and_eq_true_iff.2 ⟨hv, s.relaunched_premises w m n _ _ hp⟩
  | dwconv hasBias usgn =>
    obtain ⟨hv, hp⟩ := Bool.and_eq_true_iff.1 h
    exact Bool.and_eq_true_iff.2 ⟨hv, s.relaunched_premises w m n _ _ hp⟩
  | qmul => rfl

theorem State.shapesOk_of_ready (s : State) (i : Instr) (h : s.ready i = true) : s.shapesOk i = true := by
  cases i with
  | conv hasBias usgn => exact (Bool.and_eq_true_iff.1 h).1
  | dwconv hasBias usgn => exact (Bool.and_eq_true_iff.1 h).1
  | qmul => rfl

/-- Launched again, a ready command with its pairs in `Dom` gives output element `k` the same byte: it reads the same
registers and source bytes, and draws no free value. -/
theorem State.relaunched_ruleByte (s : State) (w : Word) (m : Memory) (n : Nat) (i : Instr) (h : s.ready i = true)
    (hp : s.PairsValid i) (hm : ∀ a, s.outsideOut a → m.read a = s.mem.read a) (k : Nat) (hk : k < s.outDims.flatSize) :
    (s.relaunched w m n).ruleByte i k = s.ruleByte i k := by
  have hagree : State.AgreeOn { s with fresh := n } (s.relaunched w m n) (s.sourcesOf i) :=
    { get := fun r hs hc => s.relaunched_get w m n r hs hc
      fresh := rfl
      bytes := fun r hr a ha => hm a (s.outsideOut_of_source i h r hr a ha) }
  calc (s.relaunched w m n).ruleByte i k
      = ({ s with fresh := n }).ruleByte i k :=
        State.ruleByte_agree (s := { s with fresh := n }) i (s.shapesOk_of_ready i h) hagree k hk
    _ = s.ruleByte i k := s.ruleByte_fresh i n hp k hk

/-- The result of a QMUL whose operands are in `Dom` (spec/40_qmul.md R94, R96). -/
theorem State.storeQmul_get_qmResult (s : State) (h : s.PairsValid .qmul) :
    s.storeQmul.get .qmResult =
      BitVec.ofInt 32 (qMul (s32 (s.get .qmAcc)) (s32 (s.get .qmMult)) (s32 (s.get .qmShift))) :=
  (s.get_set_self .qmResult _).trans (congrArg _ (deliver_of_inDom _ _ _ _ h))

/-- Two walks over the output that store the same bytes, over memories that agree outside `OUT`, leave the same bytes. -/
theorem State.read_storeRange_congr (s : State) (m : Memory) (f g : Nat → Byte)
    (hm : ∀ a, s.outsideOut a → m.read a = s.mem.read a) (hfg : ∀ k, k < s.outDims.flatSize → g k = f k) (a : Nat) :
    (m.storeRange (s.outAddr 0) s.outDims.flatSize g).read a =
      (s.mem.storeRange (s.outAddr 0) s.outDims.flatSize f).read a := by
  rw [Memory.read_storeRange, Memory.read_storeRange]
  split
  · next ha => exact hfg _ (Nat.sub_lt_left_of_lt_add ha.1 ha.2)
  · next ha => exact hm a ha

/-- Settles O32: launched again, QMUL has the same operands, and CONV and DWCONV have the same registers and source bytes. -/
theorem commandsAreIdempotent : Obligations.CommandsAreIdempotent := by
  intro s i w m h hp hm
  by_cases hi : i = .qmul
  · subst hi
    refine ⟨_, _, rfl, rfl, fun a => hm a (.inl rfl), ?_,
      (State.completed_status _ _ _).trans (s.storeQmul.completed_status _ _).symm⟩
    exact (State.storeQmul_get_qmResult (s.storeQmul.relaunched w m (s.fresh + 1)) hp).trans
      (s.storeQmul_get_qmResult hp).symm
  · have hout : ∀ a, s.outsideOut a → m.read a = s.mem.read a := fun a ha => hm a (.inr ha)
    obtain ⟨f, hf, he⟩ := exec_of_ready s i hi h
    obtain ⟨g, hg, he'⟩ := exec_of_ready (s.relaunched w m (s.fresh + s.outDims.flatSize)) i hi
      (s.relaunched_ready w m _ i h)
    have hgf : ∀ k, k < s.outDims.flatSize → g k = f k := fun k hk =>
      calc g k = (s.relaunched w m (s.fresh + s.outDims.flatSize)).ruleByte i k := hg k hk
        _ = s.ruleByte i k := s.relaunched_ruleByte w m _ i h hp hout k hk
        _ = f k := (hf k hk).symm
    exact ⟨_, _, he, he', s.read_storeRange_congr m f g hout hgf, rfl,
      (State.completed_status _ _ _).trans (s.completed_status _ _).symm⟩

end Sys2Proof.Machine
end

section
/-! The data memory as the engine and the other agents access it: elements (spec/20_memory.md R43, R44), byte accesses from
outside (R40) and buffers that are not mapped (R52). -/

namespace Sys2Proof.Machine

/-- Byte `k` of a little-endian element of any width. -/
theorem Memory.readLE_byte (m : Memory) (a n k : Nat) (hk : k < n) :
    m.readLE a n / 2 ^ (8 * k) % 2 ^ 8 = (m.read (a + k)).toNat := by
  induction k generalizing a n with
  | zero =>
    obtain ⟨n, rfl⟩ := Nat.exists_eq_succ_of_ne_zero (Nat.ne_of_gt hk)
    have hb : (m.read a).toNat < 2 ^ 8 := (m.read a).isLt
    simp only [Memory.readLE, Nat.mul_zero, Nat.pow_zero, Nat.div_one, Nat.add_zero]
    omega
  | succ k ih =>
    obtain ⟨n, rfl⟩ := Nat.exists_eq_succ_of_ne_zero (Nat.ne_of_gt (Nat.zero_lt_of_lt hk))
    have hb : (m.read a).toNat < 2 ^ 8 := (m.read a).isLt
    have hrest : m.readLE a (n + 1) / 2 ^ 8 = m.readLE (a + 1) n := by
      simp only [Memory.readLE]
      omega
    calc m.readLE a (n + 1) / 2 ^ (8 * (k + 1)) % 2 ^ 8
        = m.readLE a (n + 1) / 2 ^ 8 / 2 ^ (8 * k) % 2 ^ 8 := by
          rw [Nat.div_div_eq_div_mul, ← Nat.pow_add, show 8 * (k + 1) = 8 + 8 * k by omega]
      _ = (m.read (a + 1 + k)).toNat := by rw [hrest, ih (a + 1) n (Nat.lt_of_succ_lt_succ hk)]
      _ = (m.read (a + (k + 1))).toNat := by rw [Nat.add_assoc, Nat.add_comm 1 k]

theorem Memory.readLE_one (m : Memory) (a : Nat) : m.readLE a 1 = (m.read a).toNat := rfl

/-- Settles O39: the sum unfolds the four reads, and a 1-byte read is the byte that the division leaves. -/
theorem elementsAreLittleEndian : Obligations.ElementsAreLittleEndian := by
  intro m a
  refine ⟨?_, fun k hk => ?_⟩
  · simp only [Memory.readLE, Nat.add_assoc, Nat.reduceAdd]
    omega
  · rw [m.readLE_one, m.readLE_byte a 4 k hk]

/-! ### Byte accesses of the host and of other agents (R40) -/

theorem State.foreignWrite_mapped (s : State) (addr : Word) (b : Byte) (h : s.byteMapped addr.toNat = true) :
    s.foreignWrite addr b = .next
      { s with mem := s.mem.write addr.toNat b
               foreign := if s.busy then addr.toNat :: s.foreign else s.foreign } := if_pos h

theorem State.foreignWrite_unmapped (s : State) (addr : Word) (b : Byte) (h : s.byteMapped addr.toNat = false) :
    s.foreignWrite addr b = .fault (.unmappedByte addr.toNat) := by
  rw [State.foreignWrite, h, if_neg Bool.false_ne_true]

theorem State.foreignRead_mapped (s : State) (addr : Word) (h : s.byteMapped addr.toNat = true) :
    s.foreignRead addr = .next { s with readData := (s.mem.read addr.toNat).setWidth 32 } := if_pos h

theorem State.foreignRead_unmapped (s : State) (addr : Word) (h : s.byteMapped addr.toNat = false) :
    s.foreignRead addr = .fault (.unmappedByte addr.toNat) := by
  rw [State.foreignRead, h, if_neg Bool.false_ne_true]

/-- A step whose turn is a byte write of another agent. -/
theorem step_memWrite (s : State) (addr : Word) (b : Byte) (h : s.nextTurn = .memWrite addr b) :
    step s = s.popTurn.foreignWrite addr b := by
  rw [step, h]; rfl

/-- A step whose turn is a byte read of the host. -/
theorem step_memRead (s : State) (addr : Word) (h : s.nextTurn = .memRead addr) :
    step s = s.popTurn.foreignRead addr := by
  rw [step, h]; rfl

/-- Settles O40: a mapped access does what its turn says, an unmapped one faults. -/
theorem otherAgentsAccessMappedMemory : Obligations.OtherAgentsAccessMappedMemory := by
  intro s addr b
  refine ⟨fun hm h => ?_, fun hm h => ?_, fun hm h => ?_⟩
  · refine ⟨_, (step_memWrite s addr b h).trans (s.popTurn.foreignWrite_mapped addr b hm), rfl,
      fun a => s.mem.read_write _ a b, fun hb => ?_, fun hb => ?_⟩
    · simp only [State.popTurn_busy, State.popTurn_foreign, hb, if_true]
      exact ⟨List.mem_cons_self, fun a ha => List.mem_cons_of_mem _ ha⟩
    · simp only [State.popTurn_busy, State.popTurn_foreign, hb, Bool.false_eq_true, if_false]
  · exact ⟨_, (step_memRead s addr h).trans (s.popTurn.foreignRead_mapped addr hm), rfl, rfl,
      BitVec.toNat_setWidth_of_le (by decide)⟩
  · rcases h with h | h
    · exact (step_memWrite s addr b h).trans (s.popTurn.foreignWrite_unmapped addr b hm)
    · exact (step_memRead s addr h).trans (s.popTurn.foreignRead_unmapped addr hm)

/-! ### Buffers that are not mapped (R52) -/

/-- Settles O20: after the shape checks CONV and DWCONV look at their regions; QMUL has no region. -/
theorem unmappedBuffersRefused : Obligations.UnmappedBuffersRefused := by
  intro s i hv hm
  cases i with
  | conv hasBias usgn =>
    rw [s.buffersMapped_conv, Bool.not_eq_true] at hm
    exact (if_pos hv).trans (s.runTensor_of_not_mapped hasBias _ _ hm)
  | dwconv hasBias usgn =>
    rw [s.buffersMapped_dwconv, Bool.not_eq_true] at hm
    exact (if_pos hv).trans (s.runTensor_of_not_mapped hasBias _ _ hm)
  | qmul => exact absurd (fun r hr => absurd hr List.not_mem_nil) hm

end Sys2Proof.Machine
end

section
/-! A command's result depends on its sources alone (spec/20_memory.md R49, R54; spec/10_state.md R23). -/

namespace Sys2Proof.Machine

/-- A range of stores depends on the bytes it stores alone. -/
theorem Memory.storeRange_congr (m : Memory) (base n : Nat) (f g : Nat → Byte) (h : ∀ k, k < n → f k = g k) :
    m.storeRange base n f = m.storeRange base n g := by
  induction n with
  | zero => rfl
  | succ n ih => simp only [Memory.storeRange, ih fun k hk => h k (Nat.lt_succ_of_lt hk), h n (Nat.lt_succ_self n)]

/-- `ready` reads no byte of memory. -/
theorem State.ready_mem (s : State) (i : Instr) (m : Memory) : ({ s with mem := m }).ready i = s.ready i := by
  cases i with
  | conv hasBias usgn => rfl
  | dwconv hasBias usgn => rfl
  | qmul => rfl

/-- A ready CONV or DWCONV over a memory `m` that agrees with the state's on every source region stores the bytes that the
rules give from the state's own memory. -/
theorem exec_of_sources_agree (s : State) (i : Instr) (m : Memory) (hi : i ≠ .qmul) (h : s.ready i = true)
    (hm : ∀ r ∈ s.sourcesOf i, ∀ a, r.contains a = true → m.read a = s.mem.read a) :
    exec i { s with mem := m } = .next
      { s.complete with
        mem := m.storeRange (s.outAddr 0) s.outDims.flatSize (s.ruleByte i)
        fresh := s.fresh + s.outDims.flatSize } := by
  have hagree : s.AgreeOn { s with mem := m } (s.sourcesOf i) :=
    { get := fun _ _ _ => rfl, fresh := rfl, bytes := hm }
  obtain ⟨f, hf, he⟩ := exec_of_ready { s with mem := m } i hi ((s.ready_mem i m).trans h)
  have hbytes : ∀ k, k < s.outDims.flatSize → f k = s.ruleByte i k := fun k hk =>
    (hf k hk).trans (State.ruleByte_agree i (s.shapesOk_of_ready i h) hagree k hk)
  rw [← m.storeRange_congr (s.outAddr 0) _ f _ hbytes]
  exact he

/-- The same over the state's own memory. -/
theorem exec_eq_of_ready (s : State) (i : Instr) (hi : i ≠ .qmul) (h : s.ready i = true) :
    exec i s = .next
      { s.complete with
        mem := s.mem.storeRange (s.outAddr 0) s.outDims.flatSize (s.ruleByte i)
        fresh := s.fresh + s.outDims.flatSize } :=
  exec_of_sources_agree s i s.mem hi h fun _ _ _ _ => rfl

/-- Settles O31: both runs store the same bytes in `OUT`, and neither stores a byte outside it. -/
theorem resultDependsOnSourcesOnly : Obligations.ResultDependsOnSourcesOnly := by
  intro s i m h hm
  by_cases hi : i = .qmul
  · subst hi
    exact ⟨_, _, rfl, rfl, rfl, fun _ _ => rfl, fun hne => absurd rfl hne⟩
  · refine ⟨_, _, exec_eq_of_ready s i hi h, exec_of_sources_agree s i m hi h hm, rfl,
      ({ s with mem := m }).read_outside (s.ruleByte i), fun _ a ha => ?_⟩
    obtain ⟨k, hk, rfl⟩ := (s.not_outsideOut_iff a).1 ha
    exact (({ s with mem := m }).read_output (s.ruleByte i) k hk).trans (s.read_output (s.ruleByte i) k hk).symm

end Sys2Proof.Machine
end

section
/-! Early stores (spec/20_memory.md R54, R56, R61). -/

namespace Sys2Proof.Machine

/-- The engine's turn while it runs a legal command. -/
theorem State.engineTurn_of_running (s : State) (i : Instr) (hb : s.busy = true) (hd : decode (s.get .cmd) = .instr i) :
    s.engineTurn = exec i s := by
  simp only [State.engineTurn, hb, hd, if_true]

/-- The early store `k` of command `i`. -/
def State.earlyStore (s : State) (i : Instr) (k : Nat) : Host.Outcome State Fault Refusal :=
  match i with
  | .conv hasBias usgn => storeConv hasBias usgn k s
  | .dwconv hasBias usgn => storeDwconv hasBias usgn k s
  | .qmul => .next s.storeQmul

theorem State.engineStore_of_running (s : State) (i : Instr) (k : Nat) (hb : s.busy = true)
    (hd : decode (s.get .cmd) = .instr i) : s.engineStore k = s.earlyStore i k := by
  simp only [State.engineStore, hb, hd, if_true]
  cases i <;> rfl

theorem State.engineStore_of_idle (s : State) (k : Nat) (hb : s.busy = false) : s.engineStore k = .next s := by
  rw [State.engineStore, hb, if_neg Bool.false_ne_true]

theorem State.engineStore_of_illegal (s : State) (k : Nat) (why : IllegalWord) (hd : decode (s.get .cmd) = .illegal why) :
    s.engineStore k = .next s := by
  simp only [State.engineStore, hd, ite_self]

/-- A command that fails its shape checks makes no early store. -/
theorem State.earlyStore_of_rejected (s : State) (i : Instr) (k : Nat) (h : s.shapesOk i = false) :
    s.earlyStore i k = .next s := by
  cases i with
  | conv hasBias usgn => exact if_neg (Bool.eq_false_iff.1 h)
  | dwconv hasBias usgn => exact if_neg (Bool.eq_false_iff.1 h)
  | qmul => cases h

/-- An idle engine, an illegal word and a command to be rejected store nothing early. -/
theorem State.engineStore_nothing (s : State) (k : Nat)
    (h : s.busy = false ∨ (∃ why, decode (s.get .cmd) = .illegal why) ∨
      (∃ i, decode (s.get .cmd) = .instr i ∧ s.shapesOk i = false)) :
    s.engineStore k = .next s := by
  rcases h with hb | ⟨why, hd⟩ | ⟨i, hd, hv⟩
  · exact s.engineStore_of_idle k hb
  · exact s.engineStore_of_illegal k why hd
  · cases hb : s.busy with
    | false => exact s.engineStore_of_idle k hb
    | true => exact (s.engineStore_of_running i k hb hd).trans (s.earlyStore_of_rejected i k hv)

/-! ### The frame of an early store -/

theorem State.engineStore_busy (s t : State) (k : Nat) (h : s.engineStore k = .next t) : t.busy = s.busy :=
  congrArg statusBusyBit (s.engineStore_get t k h .status (by decide))

/-- An early store writes no byte but that of its output element. -/
theorem State.engineStore_read_ne (s t : State) (k : Nat) (h : s.engineStore k = .next t) (a : Nat) (ha : a ≠ s.outAddr k) :
    t.mem.read a = s.mem.read a := by
  rcases s.engineStore_next t k h with rfl | ⟨-, -, rfl⟩ | ⟨-, -, -, -, b, rfl⟩
  · rfl
  · rfl
  · exact (s.mem.read_write _ a b).trans (if_neg ha)

/-- Only a validated CONV or DWCONV writes a byte early, and only below the output's size. -/
theorem State.engineStore_mem_cases (s t : State) (k : Nat) (h : s.engineStore k = .next t) :
    (s.busy = true ∧ k < s.outDims.flatSize ∧
      ∃ i, i ≠ .qmul ∧ decode (s.get .cmd) = .instr i ∧ s.shapesOk i = true) ∨
    ∀ a, t.mem.read a = s.mem.read a := by
  rcases s.engineStore_next t k h with rfl | ⟨-, -, rfl⟩ | ⟨hb, hi, hk, -, -⟩
  · exact .inr fun _ => rfl
  · exact .inr fun _ => rfl
  · exact .inl ⟨hb, hk, hi⟩

/-- Only a QMUL writes `QM_RESULT` early. -/
theorem State.engineStore_qmResult_cases (s t : State) (k : Nat) (h : s.engineStore k = .next t) :
    (s.busy = true ∧ decode (s.get .cmd) = .instr .qmul) ∨ t.get .qmResult = s.get .qmResult := by
  rcases s.engineStore_next t k h with rfl | ⟨hb, hd, -⟩ | ⟨-, -, -, -, b, rfl⟩
  · exact .inr rfl
  · exact .inl ⟨hb, hd⟩
  · exact .inr rfl

theorem State.engineStore_surroundings (s t : State) (k : Nat) (h : s.engineStore k = .next t) :
    t.mapped = s.mapped ∧ t.qceBase = s.qceBase ∧ t.agenda = s.agenda ∧ t.readData = s.readData ∧
    t.foreign = s.foreign := by
  rcases s.engineStore_next t k h with rfl | ⟨-, -, rfl⟩ | ⟨-, -, -, -, b, rfl⟩ <;> exact ⟨rfl, rfl, rfl, rfl, rfl⟩

/-! ### What an early store changes has its final value -/

/-- An early store of the walk over the output gives its byte the value the whole walk gives it. -/
theorem State.runTensorStore_read_final (s t u : State) (hasBias : Bool) (filtSize k : Nat) (value : Nat → Byte)
    (h : s.runTensorStore hasBias filtSize value k = .next t) (hu : s.runTensor hasBias filtSize value = .next u) :
    t.mem.read (s.outAddr k) = s.mem.read (s.outAddr k) ∨ t.mem.read (s.outAddr k) = u.mem.read (s.outAddr k) := by
  rcases s.runTensorStore_next t _ _ _ _ h with rfl | ⟨hk, -, rfl⟩
  · exact .inl rfl
  · obtain ⟨-, rfl⟩ := s.runTensor_next u _ _ _ hu
    exact .inr (((s.mem.read_write _ _ _).trans (if_pos rfl)).trans (s.read_output _ k hk).symm)

theorem State.engineStore_read_final (s t u : State) (k : Nat) (h : s.engineStore k = .next t)
    (hu : s.engineTurn = .next u) :
    t.mem.read (s.outAddr k) = s.mem.read (s.outAddr k) ∨ t.mem.read (s.outAddr k) = u.mem.read (s.outAddr k) := by
  rcases s.engineStore_mem_cases t k h with ⟨hb, -, i, hi, hd, hv⟩ | hsame
  · rw [s.engineStore_of_running i k hb hd] at h
    rw [s.engineTurn_of_running i hb hd] at hu
    cases i with
    | conv hasBias usgn => exact s.runTensorStore_read_final t u _ _ k _ ((if_pos hv).symm.trans h) ((if_pos hv).symm.trans hu)
    | dwconv hasBias usgn => exact s.runTensorStore_read_final t u _ _ k _ ((if_pos hv).symm.trans h) ((if_pos hv).symm.trans hu)
    | qmul => exact absurd rfl hi
  · exact .inl (hsame _)

theorem State.engineStore_qmResult_final (s t u : State) (k : Nat) (h : s.engineStore k = .next t)
    (hu : s.engineTurn = .next u) :
    t.get .qmResult = s.get .qmResult ∨ t.get .qmResult = u.get .qmResult := by
  rcases s.engineStore_qmResult_cases t k h with ⟨hb, hd⟩ | hsame
  · rw [s.engineStore_of_running .qmul k hb hd] at h
    rw [s.engineTurn_of_running .qmul hb hd] at hu
    cases h
    cases hu
    exact .inr (s.storeQmul.complete_get .qmResult).symm
  · exact .inl hsame

/-- Settles O34: the frame of an early store, and its values against those of the engine's turn. -/
theorem earlyStoreFrame : Obligations.EarlyStoreFrame := by
  refine ⟨State.engineStore_nothing, fun s t k h => ?_⟩
  obtain ⟨hmapped, hbase, hagenda, hread, hforeign⟩ := s.engineStore_surroundings t k h
  exact ⟨s.engineStore_get t k h, s.engineStore_busy t k h, s.engineStore_read_ne t k h, s.engineStore_mem_cases t k h,
    s.engineStore_qmResult_cases t k h, hmapped, hbase, hagenda, hread, hforeign,
    fun u hu => ⟨s.engineStore_read_final t u k h hu, s.engineStore_qmResult_final t u k h hu⟩⟩

/-! ### After completion -/

/-- QMUL does not read `QM_RESULT`: a second write of it writes the same value. -/
theorem State.storeQmul_storeQmul (s : State) : s.storeQmul.storeQmul = s.storeQmul := rfl

/-- A store into an output element leaves every byte outside `OUT`. -/
theorem State.read_write_outside (s : State) (k : Nat) (b : Byte) (hk : k < s.outDims.flatSize) (a : Nat)
    (ha : s.outsideOut a) : (s.mem.write (s.outAddr k) b).read a = s.mem.read a := by
  refine (s.mem.read_write _ a b).trans (if_neg ?_)
  rintro rfl
  exact (s.not_outsideOut_iff _).2 ⟨k, hk, rfl⟩ ha

/-- A ready command answers a next state. -/
theorem exec_next_of_ready (s : State) (i : Instr) (h : s.ready i = true) : ∃ u, exec i s = .next u := by
  by_cases hi : i = .qmul
  · subst hi; exact ⟨_, rfl⟩
  · exact ⟨_, exec_eq_of_ready s i hi h⟩

/-- Settles O33: the command still runs after the store, reads the same sources and operands, and writes again what the store
wrote; of CONV and DWCONV the byte stored early is in `OUT`, so in no source region. -/
theorem earlyStoresDoNotShowAfterCompletion : Obligations.EarlyStoresDoNotShowAfterCompletion := by
  intro s t i k hb hd h ht
  have hsu : s.engineTurn = exec i s := s.engineTurn_of_running i hb hd
  have htv : t.engineTurn = exec i t := by
    refine t.engineTurn_of_running i ((s.engineStore_busy t k ht).trans hb) ?_
    rw [s.engineStore_get t k ht .cmd (by decide), hd]
  rw [hsu, htv]
  rcases s.engineStore_next t k ht with rfl | ⟨-, hq, rfl⟩ | ⟨-, ⟨j, hj, hjd, -⟩, hk, -, b, rfl⟩
  · obtain ⟨u, hu⟩ := exec_next_of_ready t i h
    exact ⟨u, u, hu, hu, rfl, rfl, fun _ => rfl⟩
  · obtain rfl : Instr.qmul = i := Decoded.instr.inj (hq.symm.trans hd)
    exact ⟨_, _, rfl, rfl, congrArg (fun q => q.complete.win) s.storeQmul_storeQmul, rfl, fun _ => rfl⟩
  · obtain rfl : j = i := Decoded.instr.inj (hjd.symm.trans hd)
    have hout : ∀ a, s.outsideOut a → (s.mem.write (s.outAddr k) b).read a = s.mem.read a :=
      s.read_write_outside k b hk
    have hsrc : ∀ r ∈ s.sourcesOf j, ∀ a, r.contains a = true → (s.mem.write (s.outAddr k) b).read a = s.mem.read a :=
      fun r hr a ha => hout a (s.outsideOut_of_source j h r hr a ha)
    exact ⟨_, _, exec_eq_of_ready s j hj h, exec_of_sources_agree s j _ hj h hsrc, rfl, rfl,
      s.read_storeRange_congr _ _ _ hout fun _ _ => rfl⟩

end Sys2Proof.Machine
end

section
/-! The fields of a command word, and the decoder against the encoder (spec/30_encoding.md R70 to R76, R80, R82). -/

namespace Sys2Proof

/-! ### A word is the concatenation of its fields -/

/-- Concatenations of the same widths are equal part by part. -/
theorem append_eq_append_iff {m n : Nat} (x x' : BitVec m) (y y' : BitVec n) :
    x ++ y = x' ++ y' ↔ x = x' ∧ y = y' := by
  constructor
  · intro h
    have hx := congrArg (BitVec.extractLsb' n m) h
    have hy := congrArg (BitVec.extractLsb' 0 n) h
    simp only [BitVec.extractLsb'_append_eq_left] at hx
    simp only [BitVec.extractLsb'_append_eq_right] at hy
    exact ⟨hx, hy⟩
  · rintro ⟨rfl, rfl⟩
    rfl

theorem ofBool_getLsbD (w : Word) (k : Nat) : BitVec.ofBool (w.getLsbD k) = w.extractLsb' k 1 := by
  rw [BitVec.getLsbD_eq_extractLsb']
  rcases BitVec.eq_zero_or_eq_one (w.extractLsb' k 1) with h | h <;> rw [h] <;> rfl

theorem optionBits_eq_zero_iff (w : Word) :
    w.extractLsb' 4 2 = 0 ↔ fieldUsgn w = false ∧ fieldHasBias w = false := by
  have hsplit : w.extractLsb' 5 1 ++ w.extractLsb' 4 1 = w.extractLsb' 4 2 :=
    BitVec.extractLsb'_append_extractLsb'_eq_extractLsb' (len₁ := 1) (len₂ := 1) rfl
  rw [← hsplit, ← ofBool_getLsbD, ← ofBool_getLsbD, ← fieldUsgn, ← fieldHasBias]
  cases fieldUsgn w <;> cases fieldHasBias w <;> decide

/-- The format `CW` of R70. -/
theorem word_eq_fields (w : Word) :
    w = fieldZero w ++ BitVec.ofBool (fieldUsgn w) ++ BitVec.ofBool (fieldHasBias w) ++ fieldOpc w := by
  have h5 : fieldZero w ++ w.extractLsb' 5 1 = w.extractLsb' 5 27 :=
    BitVec.extractLsb'_append_extractLsb'_eq_extractLsb' rfl
  have h4 : w.extractLsb' 5 27 ++ w.extractLsb' 4 1 = w.extractLsb' 4 28 :=
    BitVec.extractLsb'_append_extractLsb'_eq_extractLsb' rfl
  have h0 : w.extractLsb' 4 28 ++ fieldOpc w = w.extractLsb' 0 32 :=
    BitVec.extractLsb'_append_extractLsb'_eq_extractLsb' rfl
  rw [fieldUsgn, fieldHasBias, ofBool_getLsbD, ofBool_getLsbD, h5, h4, h0, BitVec.extractLsb'_eq_self]

/-- A word whose `ZERO` is 0 is assembled from its other fields. -/
theorem assemble_fields (w : Word) (h : fieldZero w = 0) :
    assemble (fieldOpc w) (fieldHasBias w) (fieldUsgn w) = w := by
  rw [assemble, ← h, ← word_eq_fields]

/-- The mask of R82 takes out the option bits and leaves `ZERO` and `OPC`. -/
theorem and_rowMask (w : Word) :
    w &&& 0xFFFFFFCF = fieldZero w ++ BitVec.ofBool false ++ BitVec.ofBool false ++ fieldOpc w := by
  have hmask : (0xFFFFFFCF : Word) = BitVec.allOnes 26 ++ 0#1 ++ 0#1 ++ BitVec.allOnes 4 := by decide
  conv_lhs => rw [word_eq_fields w, hmask, BitVec.and_append, BitVec.and_append, BitVec.and_append]
  simp only [BitVec.and_allOnes, BitVec.and_zero, BitVec.ofBool_false, BitVec.ofNat_eq_ofNat]

/-- A word matches under the mask of R82 the row of opcode `opc`, whose match is the word of that opcode without options. -/
theorem and_rowMask_eq_iff (w : Word) (opc : BitVec 4) :
    w &&& 0xFFFFFFCF = assemble opc false false ↔ fieldZero w = 0 ∧ fieldOpc w = opc := by
  rw [and_rowMask, assemble, append_eq_append_iff, append_eq_append_iff, append_eq_append_iff, and_iff_left rfl,
    and_iff_left rfl]

/-! ### The decoder, row by row, and the encoder -/

/-- Everything `decode` takes for a command. -/
theorem decode_eq_instr_iff (w : Word) (i : Instr) :
    decode w = .instr i ↔ fieldZero w = 0 ∧
      ((fieldOpc w = 1 ∧ i = .conv (fieldHasBias w) (fieldUsgn w)) ∨
       (fieldOpc w = 2 ∧ i = .dwconv (fieldHasBias w) (fieldUsgn w)) ∨
       (fieldOpc w = 3 ∧ (fieldUsgn w = false ∧ fieldHasBias w = false) ∧ i = .qmul)) := by
  constructor
  · intro h
    unfold decode at h
    split_ifs at h with hz h1 h2 h3 ho
    · cases h
      exact ⟨not_not.1 hz, .inl ⟨h1, rfl⟩⟩
    · cases h
      exact ⟨not_not.1 hz, .inr (.inl ⟨h2, rfl⟩)⟩
    · cases h
      exact ⟨not_not.1 hz, .inr (.inr ⟨h3, by simpa [and_comm] using ho, rfl⟩)⟩
  · rintro ⟨hz, ⟨h1, rfl⟩ | ⟨h2, rfl⟩ | ⟨h3, ⟨hu, hb⟩, rfl⟩⟩
    · simp [decode, hz, h1]
    · simp [decode, hz, h2]
    · simp [decode, hz, h3, hu, hb]

/-- A command's encoding decodes to it. -/
theorem decode_encode (i : Instr) : decode (encode i) = .instr i := by
  cases i with
  | conv hasBias usgn => exact (Laws.RoundTrip.conv hasBias usgn).2.2
  | dwconv hasBias usgn => exact (Laws.RoundTrip.dwconv hasBias usgn).2.2
  | qmul => exact Laws.RoundTrip.qmul.2.2

/-- A word that decodes to a command is the command's encoding: `ZERO` is 0, and `OPC` and the options are the command's. -/
theorem eq_encode_of_decode (w : Word) (i : Instr) (h : decode w = .instr i) : w = encode i := by
  obtain ⟨hz, hrow⟩ := (decode_eq_instr_iff w i).1 h
  have hw := assemble_fields w hz
  rcases hrow with ⟨h1, rfl⟩ | ⟨h2, rfl⟩ | ⟨h3, ⟨hu, hb⟩, rfl⟩
  · rw [h1] at hw; exact hw.symm
  · rw [h2] at hw; exact hw.symm
  · rw [h3, hu, hb] at hw; exact hw.symm

/-- Settles O2: the encoder assembles what the decoder takes apart. -/
theorem decodeInvertsEncode : Obligations.DecodeInvertsEncode :=
  fun w i => ⟨eq_encode_of_decode w i, fun h => h ▸ decode_encode i⟩

/-! ### Legal words -/

/-- `ZERO` read as an extracted field, against R76's clause on the word's value. -/
theorem reservedBitsZero_iff (w : Word) : reservedBitsZero w = true ↔ fieldZero w = 0 := by
  have hlt := w.isLt
  simp only [reservedBitsZero, fieldZero, beq_iff_eq, BitVec.toNat_eq, BitVec.extractLsb'_toNat, Nat.shiftRight_eq_div_pow,
    BitVec.ofNat_eq_ofNat, BitVec.toNat_ofNat]
  omega

/-- The same for `OPC` and the option bits. -/
theorem operationDefined_iff (w : Word) :
    operationDefined w = true ↔ fieldOpc w = 1 ∨ fieldOpc w = 2 ∨ (fieldOpc w = 3 ∧ w.extractLsb' 4 2 = 0) := by
  simp only [operationDefined, fieldOpc, Bool.or_eq_true, Bool.and_eq_true, beq_iff_eq, BitVec.toNat_eq,
    BitVec.extractLsb'_toNat, Nat.shiftRight_eq_div_pow, BitVec.ofNat_eq_ofNat, BitVec.toNat_ofNat]
  omega

/-- R76, the condition on the fields. -/
theorem legalWord_iff_fields (w : Word) :
    legalWord w = true ↔
      fieldZero w = 0 ∧ (fieldOpc w = 1 ∨ fieldOpc w = 2 ∨ (fieldOpc w = 3 ∧ w.extractLsb' 4 2 = 0)) := by
  rw [legalWord, Bool.and_eq_true, reservedBitsZero_iff, operationDefined_iff]

/-- R76's condition is the decoder's. -/
theorem legalWord_iff_decode (w : Word) : legalWord w = true ↔ ∃ i, decode w = .instr i := by
  simp only [legalWord_iff_fields, optionBits_eq_zero_iff, decode_eq_instr_iff]
  constructor
  · rintro ⟨hz, h1 | h2 | ⟨h3, ho⟩⟩
    · exact ⟨_, hz, .inl ⟨h1, rfl⟩⟩
    · exact ⟨_, hz, .inr (.inl ⟨h2, rfl⟩)⟩
    · exact ⟨_, hz, .inr (.inr ⟨h3, ho, rfl⟩)⟩
  · rintro ⟨i, hz, ⟨h1, -⟩ | ⟨h2, -⟩ | ⟨h3, ho, -⟩⟩
    · exact ⟨hz, .inl h1⟩
    · exact ⟨hz, .inr (.inl h2)⟩
    · exact ⟨hz, .inr (.inr ⟨h3, ho⟩)⟩

/-- Every command, in the order of R76's list of words. -/
def Instr.all : List Instr :=
  [.conv false false, .conv true false, .conv false true, .conv true true,
   .dwconv false false, .dwconv true false, .dwconv false true, .dwconv true true, .qmul]

theorem Instr.mem_all (i : Instr) : i ∈ Instr.all := by
  cases i with
  | conv hasBias usgn => cases hasBias <;> cases usgn <;> decide
  | dwconv hasBias usgn => cases hasBias <;> cases usgn <;> decide
  | qmul => decide

/-- R76's nine words are the encodings of the nine commands. -/
theorem Instr.map_encode_all :
    Instr.all.map encode = [0x01, 0x11, 0x21, 0x31, 0x02, 0x12, 0x22, 0x32, 0x03] := by decide

theorem legalWord_iff_mem (w : Word) :
    legalWord w = true ↔ w ∈ ([0x01, 0x11, 0x21, 0x31, 0x02, 0x12, 0x22, 0x32, 0x03] : List Word) := by
  rw [legalWord_iff_decode, ← Instr.map_encode_all, List.mem_map]
  constructor
  · rintro ⟨i, h⟩
    exact ⟨i, i.mem_all, (eq_encode_of_decode w i h).symm⟩
  · rintro ⟨i, -, rfl⟩
    exact ⟨i, decode_encode i⟩

theorem decode_of_not_legal (w : Word) (h : legalWord w = false) : ∃ why, decode w = .illegal why := by
  cases hd : decode w with
  | illegal why => exact ⟨why, rfl⟩
  | instr i => exact absurd ((legalWord_iff_decode w).2 ⟨i, hd⟩) (Bool.eq_false_iff.1 h)

/-- Settles O1, word by word. -/
theorem listedWordsDecode : Obligations.ListedWordsDecode := by
  unfold Obligations.ListedWordsDecode
  decide

/-! ### The rows of the opcode table (R82) -/

theorem decode_conv_iff (w : Word) :
    (∃ hasBias usgn, decode w = .instr (.conv hasBias usgn)) ↔ w &&& 0xFFFFFFCF = 0x00000001 := by
  refine Iff.trans ?_ (and_rowMask_eq_iff w 1).symm
  simp [decode_eq_instr_iff]

theorem decode_dwconv_iff (w : Word) :
    (∃ hasBias usgn, decode w = .instr (.dwconv hasBias usgn)) ↔ w &&& 0xFFFFFFCF = 0x00000002 := by
  refine Iff.trans ?_ (and_rowMask_eq_iff w 2).symm
  simp [decode_eq_instr_iff]

theorem decode_qmul_iff (w : Word) : decode w = .instr .qmul ↔ w &&& 0xFFFFFFFF = 0x00000003 := by
  have hmask : w &&& 0xFFFFFFFF = w := BitVec.and_allOnes
  rw [hmask]
  exact decodeInvertsEncode w .qmul

/-- The options of a decoded CONV or DWCONV are bits 4 and 5 of its word. -/
theorem decode_options (w : Word) (hasBias usgn : Bool)
    (h : decode w = .instr (.conv hasBias usgn) ∨ decode w = .instr (.dwconv hasBias usgn)) :
    hasBias = w.getLsbD 4 ∧ usgn = w.getLsbD 5 := by
  rcases h with h | h <;>
  · obtain ⟨-, ⟨-, hi⟩ | ⟨-, hi⟩ | ⟨-, -, hi⟩⟩ := (decode_eq_instr_iff w _).1 h <;> cases hi
    exact ⟨rfl, rfl⟩

/-- A word that matches no row decodes to no command. -/
theorem decode_of_no_row (w : Word) (hconv : w &&& 0xFFFFFFCF ≠ 0x00000001) (hdw : w &&& 0xFFFFFFCF ≠ 0x00000002)
    (hqmul : w &&& 0xFFFFFFFF ≠ 0x00000003) : ∃ why, decode w = .illegal why := by
  cases hd : decode w with
  | illegal why => exact ⟨why, rfl⟩
  | instr i =>
    cases i with
    | conv hasBias usgn => exact absurd ((decode_conv_iff w).1 ⟨_, _, hd⟩) hconv
    | dwconv hasBias usgn => exact absurd ((decode_dwconv_iff w).1 ⟨_, _, hd⟩) hdw
    | qmul => exact absurd ((decode_qmul_iff w).1 hd) hqmul

/-- Settles O4, row by row; bits 1:0 are read off the encoding of each command. -/
theorem opcodeTableRows : Obligations.OpcodeTableRows := by
  intro w
  refine ⟨decode_conv_iff w, decode_dwconv_iff w, decode_qmul_iff w, decode_options w, decode_of_no_row w, fun i h => ?_⟩
  rw [eq_encode_of_decode w i h]
  cases i with
  | conv hasBias usgn => cases hasBias <;> cases usgn <;> decide
  | dwconv hasBias usgn => cases hasBias <;> cases usgn <;> decide
  | qmul => decide

end Sys2Proof
end

section
/-! Launch, idle engine and the engine's turn as steps (spec/30_encoding.md R71, R72; spec/60_exceptions.md R179, R180). -/

namespace Sys2Proof.Machine

/-- A step whose turn is the engine's. -/
theorem step_engine (s : State) (h : s.nextTurn = .engine) : step s = s.popTurn.engineTurn := by
  rw [step, h]; rfl

/-- An idle engine's turn changes nothing (log entry 14). -/
theorem State.engineTurn_of_idle (s : State) (hb : s.busy = false) : s.engineTurn = .next s := by
  rw [State.engineTurn, hb, if_neg Bool.false_ne_true]

/-- The engine's turn while it runs an illegal word (R76). -/
theorem State.engineTurn_of_illegal (s : State) (why : IllegalWord) (hb : s.busy = true)
    (hd : decode (s.get .cmd) = .illegal why) : s.engineTurn = .next (s.raise .eCmd) := by
  simp only [State.engineTurn, hb, hd, if_true]

/-- A step that runs a legal command. -/
theorem step_of_running (s : State) (i : Instr) (h : s.nextTurn = .engine) (hb : s.busy = true)
    (hd : decode (s.get .cmd) = .instr i) : step s = exec i s.popTurn := by
  rw [step_engine s h, s.popTurn.engineTurn_of_running i hb hd]

/-- A step that runs an illegal word. -/
theorem step_of_illegal (s : State) (why : IllegalWord) (h : s.nextTurn = .engine) (hb : s.busy = true)
    (hd : decode (s.get .cmd) = .illegal why) : step s = .next (s.popTurn.raise .eCmd) := by
  rw [step_engine s h, s.popTurn.engineTurn_of_illegal why hb hd]

/-- Settles O3: the three forms of `Legal` agree, and an illegal word leads to `raise E_CMD`. -/
theorem legalIsExactlyNineWords : Obligations.LegalIsExactlyNineWords := by
  intro w
  refine ⟨legalWord_iff_fields w, legalWord_iff_mem w, legalWord_iff_decode w, fun hw s hturn hb hc => ?_⟩
  obtain ⟨why, hd⟩ := decode_of_not_legal w hw
  refine ⟨s.popTurn.raise .eCmd, step_of_illegal s why hturn hb (hc ▸ hd), ?_, fun r hr => ?_, fun _ => rfl⟩
  · exact s.popTurn.raise_get .eCmd .status
  · exact (s.popTurn.raise_get .eCmd r).trans (if_neg hr)

theorem State.launch_busy (s : State) (w : Word) : (s.launch w).busy = true := by
  rw [State.busy, s.launch_get, if_pos rfl]; rfl

/-- The word `withFetchWord` launches is the word of those 32 bits. -/
theorem State.withFetchWord_toNat (s : State) (w : Word) : s.withFetchWord 32 w.toNat = s.launched w := by
  rw [State.withFetchWord, Nat.mod_eq_of_lt w.isLt, BitVec.ofNat_toNat, BitVec.setWidth_eq]

/-- Settles O5: the engine's turn, in any state and right after a launch. -/
theorem engineTurnRunsDecodedCommand : Obligations.EngineTurnRunsDecodedCommand := by
  refine ⟨step_of_running, fun s w i hd => ?_⟩
  have hc : (s.launched w).get .cmd = w := s.launch_get w .cmd
  rw [s.withFetchWord_toNat, step_of_running (s.launched w) i rfl (s.launch_busy w) (hc.symm ▸ hd)]
  rfl

theorem statusBusy_fields :
    statusBusyBit statusBusy = true ∧ statusDoneBit statusBusy = false ∧ statusErrorBit statusBusy = false ∧
    statusEcode statusBusy = 0 := by decide

/-- Settles O7: offset 0x00 is that of `CMD`, where an idle write launches. -/
theorem launchLatchesCommand : Obligations.LaunchLatchesCommand := by
  intro s w hturn
  have hstep := step_hostWrite_base s Reg.cmd.offset w Reg.cmd.offset_aligned hturn
  rw [s.popTurn.writeOffset_offset, if_pos rfl] at hstep
  refine ⟨fun hb => ⟨s.popTurn.launch w, by rw [hstep, hb]; rfl, s.popTurn.launch_get w .cmd, ?_⟩,
    fun hb => by rw [hstep, if_pos hb]⟩
  have hst : (s.popTurn.launch w).get .status = statusBusy := s.popTurn.launch_get w .status
  obtain ⟨hbusy, hdone, herror, hecode⟩ := statusBusy_fields
  rw [hst]
  refine ⟨rfl, hbusy, hdone, herror, hecode, fun r hc hs => ?_, rfl⟩
  rw [s.popTurn.launch_get, if_neg hs, if_neg hc, s.popTurn_get]

/-! ### What starts a command -/

/-- A write of a register the host may write, `CMD` apart, does not start a command. -/
theorem State.set_busy (s : State) (r : Reg) (v : Word) (hro : r.readOnly = false) : (s.set r v).busy = s.busy := by
  have hr : Reg.status ≠ r := by rintro rfl; cases hro
  exact congrArg statusBusyBit (s.get_set_ne r .status v hr)

theorem State.applyReset_busy (s : State) : s.applyReset.busy = false :=
  (by decide : statusBusyBit (Window.reset.get .status) = false)

/-- The one turn after which an idle engine runs a command: the host's write of `CMD`. -/
theorem State.takeTurn_starts (s t : State) (turn : Turn) (hidle : s.busy = false) (h : s.takeTurn turn = .next t)
    (hb : t.busy = true) : ∃ w, turn = .hostWrite 32 s.qceBase w ∧ t = s.launch w := by
  have hsame : t.busy ≠ s.busy := by rw [hidle, hb]; decide
  cases turn with
  | engine => cases (s.engineTurn_of_idle hidle).symm.trans h; exact absurd rfl hsame
  | engineStore k => exact absurd (s.engineStore_busy t k h) hsame
  | hostWrite width addr v =>
    obtain ⟨hok, hcase⟩ := s.hostWrite_next t width addr v h
    obtain ⟨rfl, -⟩ := (s.hostAccessOk_iff width addr).1 hok
    rcases hcase with rfl | ⟨-, rfl, rfl⟩ | ⟨-, r, -, -, hro, rfl⟩
    · exact absurd rfl hsame
    · exact ⟨v, rfl, rfl⟩
    · exact absurd (s.set_busy r v hro) hsame
  | hostRead width addr => obtain ⟨-, rfl⟩ := s.hostRead_next t _ _ h; exact absurd rfl hsame
  | memWrite addr b => obtain ⟨-, rfl⟩ := s.foreignWrite_next t _ _ h; exact absurd rfl hsame
  | memRead addr => obtain ⟨-, rfl⟩ := s.foreignRead_next t _ h; exact absurd rfl hsame
  | reset => cases h; exact absurd (hb.symm.trans s.applyReset_busy) (by decide)

/-- Settles O47: the turn that starts a command is the host's write of `CMD`, whose effect is the launch. -/
theorem onlyCmdWriteStartsCommand : Obligations.OnlyCmdWriteStartsCommand := by
  intro s t hidle h hb
  obtain ⟨w, hturn, rfl⟩ := s.popTurn.takeTurn_starts t s.nextTurn hidle h hb
  exact ⟨w, hturn, s.popTurn.launch_get w .cmd, s.popTurn.launch_get w .status⟩

end Sys2Proof.Machine
end

section
/-! The rounding and the primitive over all integers (spec/40_qmul.md R91, R92, R95). -/

namespace Sys2Proof.Machine

/-! ### The rounding -/

theorem two_mul_two_pow_pred (k : Nat) (hk : 1 ≤ k) : 2 * (2 : Int) ^ (k - 1) = 2 ^ k :=
  mul_pow_sub_one (Nat.one_le_iff_ne_zero.1 hk) 2

@[simp] theorem roundHalfAway_zero_right (n : Int) : roundHalfAway n 0 = n := if_pos rfl

/-- R91, second line. -/
theorem roundHalfAway_of_nonneg (n : Int) (k : Nat) (hn : 0 ≤ n) (hk : 1 ≤ k) :
    roundHalfAway n k = (n + 2 ^ (k - 1)) / 2 ^ k := by
  rw [roundHalfAway, if_neg (Nat.one_le_iff_ne_zero.1 hk), if_pos hn]

/-- R91, third line. -/
theorem roundHalfAway_of_neg (n : Int) (k : Nat) (hn : n < 0) (hk : 1 ≤ k) :
    roundHalfAway n k = -((-n + 2 ^ (k - 1)) / 2 ^ k) := by
  rw [roundHalfAway, if_neg (Nat.one_le_iff_ne_zero.1 hk), if_neg (Int.not_le.2 hn)]

/-- One form for every `k`: doubling the fraction makes the half an integer, also for `k = 0`. -/
theorem roundHalfAway_eq_doubled (n : Int) (k : Nat) (hn : 0 ≤ n) :
    roundHalfAway n k = (2 * n + 2 ^ k) / (2 * 2 ^ k) := by
  rcases Nat.eq_zero_or_pos k with rfl | hk
  · rw [roundHalfAway_zero_right]
    omega
  · rw [roundHalfAway_of_nonneg n k hn hk, ← Int.mul_ediv_mul_of_pos _ _ two_pos, mul_add, two_mul_two_pow_pred k hk]

/-- The rounded value of a nonnegative numerator is the `q` whose interval, closed below and open above, holds it. -/
theorem roundHalfAway_eq_iff (n q : Int) (k : Nat) (hn : 0 ≤ n) :
    roundHalfAway n k = q ↔ 2 * (q * 2 ^ k) ≤ 2 * n + 2 ^ k ∧ 2 * n < 2 * (q * 2 ^ k) + 2 ^ k := by
  have hpos : (0 : Int) < 2 ^ k := by positivity
  rw [roundHalfAway_eq_doubled n k hn, Int.ediv_eq_iff_of_pos (by omega), mul_left_comm]
  omega

theorem roundHalfAway_zero_left (k : Nat) : roundHalfAway 0 k = 0 := by
  rw [roundHalfAway_eq_iff 0 0 k le_rfl]
  simp

theorem roundHalfAway_neg (n : Int) (k : Nat) : roundHalfAway (-n) k = -roundHalfAway n k := by
  rcases Nat.eq_zero_or_pos k with rfl | hk
  · rw [roundHalfAway_zero_right, roundHalfAway_zero_right]
  rcases lt_trichotomy n 0 with hn | rfl | hn
  · rw [roundHalfAway_of_neg n k hn hk, roundHalfAway_of_nonneg (-n) k (by omega) hk, neg_neg]
  · rw [neg_zero, roundHalfAway_zero_left, neg_zero]
  · rw [roundHalfAway_of_nonneg n k hn.le hk, roundHalfAway_of_neg (-n) k (by omega) hk, neg_neg]

theorem roundHalfAway_nonneg (n : Int) (k : Nat) (hn : 0 ≤ n) : 0 ≤ roundHalfAway n k := by
  rw [roundHalfAway_eq_doubled n k hn]
  positivity

theorem roundHalfAway_mono (n n' : Int) (k : Nat) (h : n ≤ n') : roundHalfAway n k ≤ roundHalfAway n' k := by
  have pos : ∀ a b : Int, 0 ≤ a → a ≤ b → roundHalfAway a k ≤ roundHalfAway b k := fun a b ha hab => by
    rw [roundHalfAway_eq_doubled a k ha, roundHalfAway_eq_doubled b k (ha.trans hab)]
    exact Int.ediv_le_ediv (by positivity) (by omega)
  have neg : ∀ a b : Int, b ≤ 0 → a ≤ b → roundHalfAway a k ≤ roundHalfAway b k := fun a b hb hab => by
    have := pos (-b) (-a) (by omega) (by omega)
    rwa [roundHalfAway_neg, roundHalfAway_neg, neg_le_neg_iff] at this
  rcases le_total 0 n with hn | hn
  · exact pos n n' hn h
  · rcases le_total 0 n' with hn' | hn'
    · exact (neg n 0 le_rfl hn).trans (pos 0 n' le_rfl hn')
    · exact neg n n' hn' h

/-- A multiple of `2 ^ k` is divided exactly. -/
theorem roundHalfAway_mul_two_pow (q : Int) (k : Nat) : roundHalfAway (q * 2 ^ k) k = q := by
  have hpos : (0 : Int) < 2 ^ k := by positivity
  have nonneg : ∀ q : Int, 0 ≤ q → roundHalfAway (q * 2 ^ k) k = q := fun q hq => by
    rw [roundHalfAway_eq_iff _ _ _ (by positivity)]
    omega
  rcases le_total 0 q with hq | hq
  · exact nonneg q hq
  · have := nonneg (-q) (by omega)
    rwa [neg_mul, roundHalfAway_neg, neg_inj] at this

/-- A numerator half way between two integers is rounded to the one further from 0. -/
theorem roundHalfAway_of_half (n h : Int) (k : Nat) (hh : 0 ≤ h) (hn : 2 * n = (2 * h + 1) * 2 ^ k) :
    roundHalfAway n k = h + 1 := by
  have hpos : (0 : Int) < 2 ^ k := by positivity
  have hn0 : 0 ≤ 2 * n := hn ▸ by positivity
  rw [roundHalfAway_eq_iff n _ k (by omega), hn]
  constructor <;> linarith

/-- A nonnegative numerator lies within half a unit of its rounded value, strictly when it is the larger one. -/
theorem roundHalfAway_error (n : Int) (k : Nat) (hn : 0 ≤ n) :
    2 * |roundHalfAway n k * 2 ^ k - n| ≤ 2 ^ k ∧
    (2 * |roundHalfAway n k * 2 ^ k - n| = 2 ^ k → n < roundHalfAway n k * 2 ^ k) := by
  obtain ⟨hle, hlt⟩ := (roundHalfAway_eq_iff n _ k hn).1 rfl
  generalize roundHalfAway n k * 2 ^ k = r at *
  rcases abs_cases (r - n) with ⟨habs, -⟩ | ⟨habs, -⟩ <;> omega

theorem roundHalfAway_abs (n : Int) (k : Nat) : roundHalfAway |n| k = |roundHalfAway n k| := by
  rw [← abs_of_nonneg (roundHalfAway_nonneg |n| k (abs_nonneg n))]
  rcases abs_choice n with h | h
  · rw [h]
  · rw [h, roundHalfAway_neg, abs_neg]

/-- A numerator is as far from its rounded value as its magnitude is from its own. -/
theorem abs_roundHalfAway_sub (n : Int) (k : Nat) :
    |roundHalfAway n k * 2 ^ k - n| = |roundHalfAway |n| k * 2 ^ k - (|n|)| := by
  rcases abs_choice n with h | h
  · rw [h]
  · rw [h, roundHalfAway_neg, neg_mul, neg_sub_neg, abs_sub_comm]

/-- Settles O11: with the error bound for nonnegative numerators, carried to the negative ones by oddness. -/
theorem roundHalfAwayIsNearest : Obligations.RoundHalfAwayIsNearest := by
  refine ⟨roundHalfAway_zero_right, fun n k hn hk => ?_, fun n k hn hk => ?_, fun n k => ?_, fun n k => ?_,
    roundHalfAway_neg, fun acc m s hs => if_neg (Int.not_le.2 hs), by decide⟩
  · rw [Int.fdiv_eq_ediv_of_nonneg _ (by positivity), roundHalfAway_of_nonneg n k hn hk]
  · rw [Int.fdiv_eq_ediv_of_nonneg _ (by positivity), roundHalfAway_of_neg n k hn hk]
  · rw [abs_roundHalfAway_sub n k]
    exact (roundHalfAway_error |n| k (abs_nonneg n)).1
  · rw [abs_roundHalfAway_sub n k, abs_mul, ← roundHalfAway_abs, abs_of_nonneg (by positivity : (0 : Int) ≤ 2 ^ k)]
    exact (roundHalfAway_error |n| k (abs_nonneg n)).2

/-! ### The primitive -/

theorem qMul_of_nonneg (acc m s : Int) (hs : 0 ≤ s) : qMul acc m s = acc * m * 2 ^ s.toNat := if_pos hs

/-- At shift 0 the rounding form and the shift form agree. -/
theorem qMul_of_nonpos (acc m s : Int) (hs : s ≤ 0) : qMul acc m s = roundHalfAway (acc * m) (-s).toNat := by
  rcases hs.lt_or_eq with hs | rfl
  · exact if_neg (Int.not_le.2 hs)
  · rw [qMul_of_nonneg acc m 0 le_rfl, neg_zero, Int.toNat_zero, roundHalfAway_zero_right, pow_zero, mul_one]

theorem qMul_neg_natCast (acc m : Int) (k : Nat) : qMul acc m (-k) = roundHalfAway (acc * m) k := by
  rw [qMul_of_nonpos acc m (-k) (by omega), neg_neg, Int.toNat_natCast]

/-- The primitive sees its operands through their exact product. -/
theorem qMul_eq_one_mul (acc m s : Int) : qMul acc m s = qMul (acc * m) 1 s := by
  rw [qMul, qMul, mul_one]

theorem qMul_zero (m s : Int) : qMul 0 m s = 0 := by
  rcases le_total 0 s with hs | hs
  · rw [qMul_of_nonneg 0 m s hs, zero_mul, zero_mul]
  · rw [qMul_of_nonpos 0 m s hs, zero_mul, roundHalfAway_zero_left]

theorem qMul_neg (acc m s : Int) : qMul (-acc) m s = -qMul acc m s := by
  rcases le_total 0 s with hs | hs
  · rw [qMul_of_nonneg _ m s hs, qMul_of_nonneg acc m s hs, neg_mul, neg_mul]
  · rw [qMul_of_nonpos _ m s hs, qMul_of_nonpos acc m s hs, neg_mul, roundHalfAway_neg]

theorem qMul_mono (acc acc' m s : Int) (hm : 0 ≤ m) (h : acc ≤ acc') : qMul acc m s ≤ qMul acc' m s := by
  have hprod : acc * m ≤ acc' * m := mul_le_mul_of_nonneg_right h hm
  rcases le_total 0 s with hs | hs
  · rw [qMul_of_nonneg acc m s hs, qMul_of_nonneg acc' m s hs]
    exact mul_le_mul_of_nonneg_right hprod (by positivity)
  · rw [qMul_of_nonpos acc m s hs, qMul_of_nonpos acc' m s hs]
    exact roundHalfAway_mono _ _ _ hprod

/-- Settles O12: the sign laws are monotonicity at 0, the laws of a negative half those of a positive one by oddness. -/
theorem qMulLaws : Obligations.QMulLaws := by
  refine ⟨qMul_zero, fun acc s => ?_, qMul_neg, fun acc m s hm ha => ?_, fun acc m s hm ha => ?_, fun acc m => ?_,
    fun acc m h k hh _ hn => ?_, fun acc m h k hh _ hn => ?_, qMul_mono⟩
  · rw [qMul_eq_one_mul, mul_zero, qMul_zero]
  · exact qMul_zero m s ▸ qMul_mono 0 acc m s hm ha
  · exact qMul_zero m s ▸ qMul_mono acc 0 m s hm ha
  · rw [qMul_of_nonneg acc m 0 le_rfl, Int.toNat_zero, pow_zero, mul_one]
  · rw [qMul_neg_natCast, roundHalfAway_of_half _ h k hh hn]
  · have hneg : roundHalfAway (-(acc * m)) k = h + 1 := roundHalfAway_of_half _ h k hh (by rw [mul_neg, hn, neg_neg])
    rw [qMul_neg_natCast, ← neg_neg (roundHalfAway _ k), ← roundHalfAway_neg, hneg]

end Sys2Proof.Machine
end

section
/-! The domain of the primitive, its 64-bit datapath, and QMUL (spec/40_qmul.md R93, R94, R96, R98). -/

namespace Sys2Proof.Machine

theorem fits32_iff (n : Int) : fits32 n = true ↔ -2 ^ 31 ≤ n ∧ n ≤ 2 ^ 31 - 1 := by
  rw [fits32, Bool.and_eq_true, decide_eq_true_iff, decide_eq_true_iff]

theorem validPair_iff (m s : Int) : validPair m s = true ↔ (0 ≤ m ∧ m ≤ 2 ^ 31 - 1) ∧ -63 ≤ s ∧ s ≤ 31 := by
  simp only [validPair, Bool.and_eq_true, decide_eq_true_iff, and_assoc]

theorem inDom_iff (acc m s : Int) :
    inDom acc m s = true ↔ fits32 acc = true ∧ validPair m s = true ∧ fits32 (qMul acc m s) = true := by
  rw [inDom, Bool.and_eq_true, Bool.and_eq_true, and_assoc]

/-! ### Scales up to 1 -/

/-- A scale from 0 to 1 takes no accumulator out of its 32 bits: the end points are exact multiples, the rest is monotone. -/
theorem fits32_qMul_of_scale_le_one (acc m s : Int) (ha : fits32 acc = true) (hm : 0 ≤ m) (hs : s ≤ 0)
    (hscale : m ≤ 2 ^ (-s).toNat) : fits32 (qMul acc m s) = true := by
  obtain ⟨hlo, hhi⟩ := (fits32_iff acc).1 ha
  rw [qMul_of_nonpos acc m s hs, fits32_iff]
  generalize (-s).toNat = k at *
  have hprod_lo : -2 ^ 31 * 2 ^ k ≤ acc * m := by
    calc (-2 ^ 31 : Int) * 2 ^ k ≤ -2 ^ 31 * m := mul_le_mul_of_nonpos_left hscale (by norm_num)
      _ ≤ acc * m := mul_le_mul_of_nonneg_right hlo hm
  have hprod_hi : acc * m ≤ (2 ^ 31 - 1) * 2 ^ k := by
    calc acc * m ≤ (2 ^ 31 - 1) * m := mul_le_mul_of_nonneg_right hhi hm
      _ ≤ (2 ^ 31 - 1) * 2 ^ k := mul_le_mul_of_nonneg_left hscale (by norm_num)
  constructor
  · exact roundHalfAway_mul_two_pow (-2 ^ 31) k ▸ roundHalfAway_mono _ _ k hprod_lo
  · exact roundHalfAway_mul_two_pow (2 ^ 31 - 1) k ▸ roundHalfAway_mono _ _ k hprod_hi

/-- Settles O13: a multiplier is below `2 ^ 31`, so every `s ≤ -31` makes the scale at most 1. -/
theorem domHoldsForScalesUpToOne : Obligations.DomHoldsForScalesUpToOne := by
  intro acc m s ha hp
  obtain ⟨⟨hm0, hm⟩, -⟩ := (validPair_iff m s).1 hp
  have dom : s ≤ 0 → m ≤ 2 ^ (-s).toNat → inDom acc m s = true := fun hs hscale =>
    (inDom_iff acc m s).2 ⟨ha, hp, fits32_qMul_of_scale_le_one acc m s ha hm0 hs hscale⟩
  refine ⟨dom, fun hs => dom (by omega) ?_⟩
  have hpow : (2 : Int) ^ 31 ≤ 2 ^ (-s).toNat := pow_le_pow_right₀ (by norm_num) (by omega)
  omega

/-! ### The 64-bit datapath -/

/-- What the datapath adds before its arithmetic shift by `k` (R98). -/
def roundingAddend (n : Int) (k : Nat) : Int := if 0 ≤ n then 2 ^ (k - 1) else 2 ^ (k - 1) - 1

theorem roundingAddend_bounds (n : Int) (k : Nat) : 0 ≤ roundingAddend n k ∧ roundingAddend n k ≤ 2 ^ (k - 1) := by
  have hpos : (0 : Int) < 2 ^ (k - 1) := by positivity
  rw [roundingAddend]
  split <;> omega

/-- The rounding as one floor division: for a negative numerator the addend is one less, so that a half goes down. -/
theorem roundHalfAway_eq_floor (n : Int) (k : Nat) (hk : 1 ≤ k) :
    roundHalfAway n k = (n + roundingAddend n k) / 2 ^ k := by
  rw [roundingAddend]
  split
  · next hn => exact roundHalfAway_of_nonneg n k hn hk
  · next hn =>
    have hpos : (0 : Int) < 2 ^ k := by positivity
    have hhalf := two_mul_two_pow_pred k hk
    obtain ⟨hle, hlt⟩ := (Int.ediv_eq_iff_of_pos (x := -n + 2 ^ (k - 1)) hpos).1 rfl
    rw [roundHalfAway_of_neg n k (Int.not_le.1 hn) hk, eq_comm, Int.ediv_eq_iff_of_pos hpos, neg_mul]
    omega

/-- The addend as the 64-bit word the datapath holds. -/
theorem ofInt_roundingAddend (n : Int) (k : Nat) :
    BitVec.ofInt 64 (roundingAddend n k) =
      if 0 ≤ n then BitVec.ofNat 64 (2 ^ (k - 1)) else BitVec.ofNat 64 (2 ^ (k - 1) - 1) := by
  rw [roundingAddend]
  split
  · rw [← BitVec.ofInt_natCast, Nat.cast_pow, Nat.cast_ofNat]
  · rw [← BitVec.ofInt_natCast, Nat.cast_sub Nat.one_le_two_pow, Nat.cast_pow, Nat.cast_ofNat, Nat.cast_one]

/-- The product of a 32-bit accumulator and a valid multiplier has 62 bits and a sign. -/
theorem product_bounds (acc m : Int) (ha : fits32 acc = true) (hm0 : 0 ≤ m) (hm : m ≤ 2 ^ 31 - 1) :
    -2 ^ 62 ≤ acc * m ∧ acc * m < 2 ^ 62 := by
  obtain ⟨hlo, hhi⟩ := (fits32_iff acc).1 ha
  constructor <;> nlinarith

theorem toInt_ofInt_64 (n : Int) (hlo : -2 ^ 63 ≤ n) (hhi : n < 2 ^ 63) : (BitVec.ofInt 64 n).toInt = n :=
  BitVec.toInt_ofInt_eq_self (by decide) hlo hhi

/-- The right shift: neither the product nor its sum with the addend leaves the 64 bits. -/
theorem ofInt_add_sshiftRight (n : Int) (k : Nat) (hlo : -2 ^ 62 ≤ n) (hhi : n < 2 ^ 62) (hk : 1 ≤ k) (hk63 : k ≤ 63) :
    (BitVec.ofInt 64 n + BitVec.ofInt 64 (roundingAddend n k)).sshiftRight k = BitVec.ofInt 64 (roundHalfAway n k) := by
  obtain ⟨h0, hle⟩ := roundingAddend_bounds n k
  have hpow : (2 : Int) ^ (k - 1) ≤ 2 ^ 62 := pow_le_pow_right₀ (by norm_num) (by omega)
  have hsum : (BitVec.ofInt 64 (n + roundingAddend n k)).toInt = n + roundingAddend n k :=
    toInt_ofInt_64 _ (by omega) (by omega)
  rw [← BitVec.ofInt_add, ← BitVec.ofInt_toInt (x := BitVec.sshiftRight _ k), BitVec.toInt_sshiftRight, hsum,
    Int.shiftRight_eq_div_pow, Nat.cast_pow, Nat.cast_ofNat, roundHalfAway_eq_floor n k hk]

/-- The left shift, modulo `2 ^ 64`. -/
theorem ofInt_shiftLeft (n : Int) (k : Nat) : BitVec.ofInt 64 n <<< k = BitVec.ofInt 64 (n * 2 ^ k) := by
  have hpow : BitVec.twoPow 64 k = BitVec.ofNat 64 (2 ^ k) :=
    BitVec.eq_of_toNat_eq ((BitVec.toNat_twoPow 64 k).trans (BitVec.toNat_ofNat _ 64).symm)
  rw [BitVec.shiftLeft_eq_mul_twoPow, BitVec.ofInt_mul, hpow, ← BitVec.ofInt_natCast, Nat.cast_pow, Nat.cast_ofNat]

/-- A 32-bit value is in the low 32 bits of its 64-bit word. -/
theorem setWidth_ofInt_toInt (q : Int) (hq : fits32 q = true) : ((BitVec.ofInt 64 q).setWidth 32).toInt = q := by
  obtain ⟨hlo, hhi⟩ := (fits32_iff q).1 hq
  rw [← BitVec.signExtend_eq_setWidth_of_le _ (by decide), BitVec.toInt_signExtend, toInt_ofInt_64 q (by omega) (by omega)]
  exact Int.bmod_eq_of_le (m := 2 ^ 32) (by omega) (by omega)

/-- Settles O14: after either shift the 64-bit word is that of the primitive's value, which fits its low 32 bits. -/
theorem fixedWidthDatapathAgrees : Obligations.FixedWidthDatapathAgrees := by
  intro acc m s h
  obtain ⟨ha, hp, hq⟩ := (inDom_iff acc m s).1 h
  obtain ⟨⟨hm0, hm⟩, hs63, -⟩ := (validPair_iff m s).1 hp
  obtain ⟨hlo, hhi⟩ := product_bounds acc m ha hm0 hm
  have hprod : (BitVec.ofInt 64 (acc * m)).toInt = acc * m := toInt_ofInt_64 _ (by omega) (by omega)
  intro p k shifted
  have hshifted : shifted = BitVec.ofInt 64 (qMul acc m s) := by
    rcases lt_or_ge s 0 with hs | hs
    · rw [qMul_of_nonpos acc m s hs.le, ← ofInt_add_sshiftRight _ _ hlo hhi (by omega) (by omega), ofInt_roundingAddend]
      simp only [shifted, p, k, if_pos hs, hprod]
    · rw [qMul_of_nonneg acc m s hs, ← ofInt_shiftLeft]
      exact if_neg (Int.not_lt.2 hs)
  rw [hshifted]
  exact ⟨hprod, setWidth_ofInt_toInt _ hq⟩

/-! ### QMUL -/

/-- `QM_RESULT` holds a 32-bit value without loss. -/
theorem s32_ofInt (n : Int) (h : fits32 n = true) : s32 (BitVec.ofInt 32 n) = n := by
  obtain ⟨hlo, hhi⟩ := (fits32_iff n).1 h
  exact BitVec.toInt_ofInt_eq_self (by decide) hlo (by omega)

/-- Outside `Dom` the primitive delivers the free value (R94). -/
theorem deliver_of_not_inDom (acc m s : Int) (k : Nat) (h : inDom acc m s = false) :
    deliver acc m s k = (Config.freeValue k).toInt :=
  if_neg (Bool.not_eq_true _ ▸ h)

/-- The result of a QMUL whose operands are outside `Dom` (R94; log entry 5). -/
theorem State.storeQmul_get_qmResult_of_not_inDom (s : State)
    (h : inDom (s32 (s.get .qmAcc)) (s32 (s.get .qmMult)) (s32 (s.get .qmShift)) = false) :
    s.storeQmul.get .qmResult = Config.freeValue s.fresh := by
  rw [State.storeQmul, s.get_set_self, deliver_of_not_inDom _ _ _ _ h, BitVec.ofInt_toInt]

/-- QMUL answers its completed state, with the result stored. -/
theorem exec_qmul (s : State) : exec .qmul s = .next { s.storeQmul.complete with fresh := s.fresh + 1 } := rfl

/-- Settles O15: by whether the operands are in `Dom`. -/
theorem qmulCompletes : Obligations.QmulCompletes := by
  intro s
  have hresult : s.storeQmul.complete.get .qmResult = s.storeQmul.get .qmResult :=
    (s.storeQmul.complete_get .qmResult).trans (if_neg (by decide))
  refine ⟨_, exec_qmul s, s.storeQmul.complete_get .status, fun h => ?_, fun h => ?_⟩
  · obtain ⟨-, -, hq⟩ := (inDom_iff _ _ _).1 h
    exact (congrArg s32 (hresult.trans (s.storeQmul_get_qmResult h))).trans (s32_ofInt _ hq)
  · exact hresult.trans (s.storeQmul_get_qmResult_of_not_inDom h)

end Sys2Proof.Machine
end

section
/-! The sums over taps and channels, and the width of the numbers they are made of (spec/41_conv.md R115 to R118,
spec/20_memory.md R47). -/

namespace Sys2Proof.Machine

/-! ### Sums -/

theorem sumBelow_eq_zero (n : Nat) (f : Nat → Int) (h : ∀ i, i < n → f i = 0) : sumBelow n f = 0 := by
  rw [sumBelow_eq_sum]
  exact Finset.sum_eq_zero fun i hi => h i (Finset.mem_range.1 hi)

theorem sumBelow_le (n : Nat) (f : Nat → Int) (c : Int) (h : ∀ i, i < n → f i ≤ c) : sumBelow n f ≤ n * c := by
  rw [sumBelow_eq_sum]
  simpa using Finset.sum_le_card_nsmul (Finset.range n) f c fun i hi => h i (Finset.mem_range.1 hi)

theorem abs_sumBelow_le (n : Nat) (f g : Nat → Int) (h : ∀ i, i < n → |f i| ≤ g i) : |sumBelow n f| ≤ sumBelow n g := by
  rw [sumBelow_eq_sum, sumBelow_eq_sum]
  exact (Finset.abs_sum_le_sum_abs f _).trans (Finset.sum_le_sum fun i hi => h i (Finset.mem_range.1 hi))

/-- A seed and a sum over filter positions are at most the sum of the magnitudes. -/
theorem abs_add_sumBelow_le (seed : Int) (m n : Nat) (f g : Nat → Nat → Int)
    (h : ∀ fy, fy < m → ∀ fx, fx < n → |f fy fx| ≤ g fy fx) :
    |seed + sumBelow m fun fy => sumBelow n fun fx => f fy fx| ≤
      |seed| + sumBelow m fun fy => sumBelow n fun fx => g fy fx :=
  (abs_add_le _ _).trans
    (add_le_add_right (abs_sumBelow_le m _ _ fun fy hfy => abs_sumBelow_le n _ _ (h fy hfy)) _)

/-! ### Numbers -/

theorem wrap32_of_abs_le (n : Int) (h : |n| ≤ 2 ^ 31 - 1) : wrap32 n = n := by
  obtain ⟨hlo, hhi⟩ := abs_le.1 h
  exact s32_ofInt n ((fits32_iff n).2 ⟨by omega, hhi⟩)

/-- The seed is a 32-bit word read as signed, or 0 (R116). -/
theorem State.wrap32_seed (s : State) (hasBias : Bool) (oc : Nat) : wrap32 (s.seed hasBias oc) = s.seed hasBias oc := by
  cases hasBias with
  | true => exact congrArg BitVec.toInt BitVec.ofInt_toInt
  | false => rfl

/-- A byte read back by the convention whose range holds the number it was cut from (R121). -/
theorem ext_low8 (usgn : Bool) (n : Int) (hlo : (if usgn then 0 else -128) ≤ n) (hhi : n ≤ (if usgn then 255 else 127)) :
    ext usgn (low8 n).toNat = n := by
  have hbyte : BitVec.ofNat 8 (low8 n).toNat = BitVec.ofInt 8 n := (BitVec.ofNat_toNat 8 _).trans (BitVec.setWidth_eq _)
  cases usgn with
  | true =>
    simp only [if_true] at hlo hhi
    simp only [ext, hbyte, if_true, BitVec.toNat_ofInt]
    omega
  | false =>
    simp only [Bool.false_eq_true, if_false] at hlo hhi
    simp only [ext, hbyte, Bool.false_eq_true, if_false]
    exact BitVec.toInt_ofInt_eq_self (by decide) (by omega) (by omega)

theorem ext_signed_bounds (v : Nat) : -128 ≤ ext false v ∧ ext false v ≤ 127 := by
  have hlo := BitVec.le_toInt (BitVec.ofNat 8 v)
  have hhi := BitVec.toInt_lt (x := BitVec.ofNat 8 v)
  simp only [ext, Bool.false_eq_true, if_false]
  omega

/-- A signed element is at most 128 in magnitude, an offset one at most 384 (R118). -/
theorem abs_signed_term_le (f v : Nat) (off : Int) (hlo : -256 ≤ off) (hhi : off ≤ 255) :
    |ext false f * (ext false v + off)| ≤ 49152 := by
  have hf := ext_signed_bounds f
  have hv := ext_signed_bounds v
  have hfilt : |ext false f| ≤ 128 := abs_le.2 ⟨by omega, by omega⟩
  have hin : |ext false v + off| ≤ 384 := abs_le.2 ⟨by omega, by omega⟩
  calc |ext false f * (ext false v + off)| = |ext false f| * |ext false v + off| := abs_mul _ _
    _ ≤ 128 * 384 := mul_le_mul hfilt hin (abs_nonneg _) (by norm_num)
    _ = 49152 := by norm_num

end Sys2Proof.Machine
end

section
/-! What a validated or ready command leaves in `STATUS` and in `OUT` (spec/41_conv.md R119 to R123). -/

namespace Sys2Proof.Machine

/-- A command that passes its shape checks ends with `DONE` whenever it answers a next state. -/
theorem exec_status_of_shapesOk (i : Instr) (s t : State) (hv : s.shapesOk i = true) (h : exec i s = .next t) :
    t.get .status = statusDone := by
  rcases exec_next i s t h with ⟨hv', -⟩ | ⟨-, rfl⟩ | ⟨-, -, f, rfl⟩
  · rw [hv] at hv'; cases hv'
  · exact s.storeQmul.complete_get .status
  · exact s.completed_status _ _

/-- A validated and mapped CONV or DWCONV completes, whatever bytes it stores. -/
theorem exec_of_mapped (s : State) (i : Instr) (hi : i ≠ .qmul) (hv : s.shapesOk i = true) (hm : s.BuffersMapped i) :
    ∃ f : Nat → Byte, exec i s = .next
      { s.complete with
        mem := s.mem.storeRange (s.outAddr 0) s.outDims.flatSize f
        fresh := s.fresh + s.outDims.flatSize } := by
  cases i with
  | conv hasBias usgn =>
    exact ⟨_, (if_pos hv).trans (s.runTensor_of_mapped hasBias _ _ ((s.buffersMapped_conv hasBias usgn).1 hm))⟩
  | dwconv hasBias usgn =>
    exact ⟨_, (if_pos hv).trans (s.runTensor_of_mapped hasBias _ _ ((s.buffersMapped_dwconv hasBias usgn).1 hm))⟩
  | qmul => exact absurd rfl hi

/-- A ready CONV or DWCONV ends with `DONE`, and output byte `k` is the one the rules give. -/
theorem exec_outputs_of_ready (s : State) (i : Instr) (hi : i ≠ .qmul) (h : s.ready i = true) :
    ∃ t, exec i s = .next t ∧ t.get .status = statusDone ∧
      ∀ k, k < s.outDims.flatSize → t.mem.read (u32 (s.get .outBase) + k) = s.ruleByte i k :=
  ⟨_, exec_eq_of_ready s i hi h, s.completed_status _ _, s.read_output (s.ruleByte i)⟩

/-- The rules' byte is the low 8 bits of a clamped value. -/
theorem State.ruleByte_eq_low8_clamped (s : State) (i : Instr) (hi : i ≠ .qmul) (k : Nat) :
    ∃ acc oc, s.ruleByte i k = low8 (s.clamped acc oc k) := by
  cases i with
  | conv hasBias usgn => exact ⟨_, _, rfl⟩
  | dwconv hasBias usgn => exact ⟨_, _, rfl⟩
  | qmul => exact absurd rfl hi

/-- The rules' byte of the output element at an index of the output shape. -/
theorem State.elemByte_index (s : State) (acc : Nat → Nat → Nat → Nat → Int) (b oy ox oc : Nat)
    (h : s.isOutput b oy ox oc) :
    s.elemByte acc (s.outDims.index b oy ox oc) =
      low8 (s.clamped (acc b oy ox oc) oc (s.outDims.index b oy ox oc)) := by
  obtain ⟨-, hoy, hox, hoc⟩ := h
  simp only [State.elemByte, s.outDims.coords_index b oy ox oc hoy hox hoc]

end Sys2Proof.Machine
end

section
/-! Validation of CONV (spec/41_conv.md R112). -/

namespace Sys2Proof.Machine

theorem extractLsb'_toNat_eq_four_iff (w : Word) (lo : Nat) :
    (w.extractLsb' lo 8).toNat = 4 ↔ w.extractLsb' lo 8 = 4 :=
  BitVec.toNat_inj (y := (4 : BitVec 8))

/-- The rank checks V1 and W1. -/
theorem State.ranksOk_iff (s : State) (hasBias : Bool) :
    s.ranksOk hasBias = true ↔
      (s.get .shapeRank).extractLsb' 0 8 = 4 ∧ (s.get .shapeRank).extractLsb' 8 8 = 4 ∧
      (s.get .shapeRank).extractLsb' 24 8 = 4 ∧ (hasBias = true → (s.get .shapeRank).extractLsb' 16 8 = 4) := by
  simp only [State.ranksOk, State.inRank, State.filtRank, State.outRank, State.biasRank, extractLsb'_toNat_eq_four_iff]
  cases hasBias <;> simp [and_assoc]

/-- The bias length checks V5 and W5. -/
theorem State.biasOk_iff (s : State) (hasBias : Bool) :
    s.biasOk hasBias = true ↔ (hasBias = true →
      u32 (s.get .biasDim0) * u32 (s.get .biasDim1) * u32 (s.get .biasDim2) * u32 (s.get .biasDim3) =
        u32 (s.get .outDim3)) := by
  simp only [State.biasOk, Bool.or_eq_true, Bool.not_eq_true', decide_eq_true_eq, ← Bool.not_eq_true, ← imp_iff_not_or]
  rfl

/-- The checks V1 to V5. -/
theorem State.convShapesOk_iff (s : State) (hasBias : Bool) :
    s.convShapesOk hasBias = true ↔
      s.ranksOk hasBias = true ∧ u32 (s.get .inDim0) = u32 (s.get .outDim0) ∧
      u32 (s.get .inDim3) = u32 (s.get .filtDim3) ∧ u32 (s.get .filtDim0) = u32 (s.get .outDim3) ∧
      s.biasOk hasBias = true := by
  simp only [State.convShapesOk, Bool.and_eq_true, decide_eq_true_eq, and_assoc]
  rfl

/-- Settles O17: CONV is rejected exactly when `convShapesOk` fails, and a validated command ends with `DONE`. -/
theorem convShapeChecks : Obligations.ConvShapeChecks := by
  intro s hasBias usgn v1 v2 v3 v4 v5
  have hchecks : s.convShapesOk hasBias = true ↔ v1 ∧ v2 ∧ v3 ∧ v4 ∧ v5 := by
    rw [s.convShapesOk_iff, s.ranksOk_iff, s.biasOk_iff]
  exact ⟨fun h => if_neg (mt hchecks.1 h), fun h t => exec_status_of_shapesOk (.conv hasBias usgn) s t (hchecks.2 h)⟩

end Sys2Proof.Machine
end

section
/-! The accumulator of CONV and DWCONV: its taps, its exact sum, and when it is the seed alone (spec/41_conv.md R114 to R118,
R124; spec/42_dwconv.md R144, R147). -/

namespace Sys2Proof.Machine

theorem State.tapInBounds_iff (s : State) (y x : Int) :
    s.tapInBounds y x = true ↔ 0 ≤ y ∧ y < u32 (s.get .inDim1) ∧ 0 ≤ x ∧ x < u32 (s.get .inDim2) := by
  simp only [State.tapInBounds, Bool.and_eq_true, decide_eq_true_eq, and_assoc]
  rfl

/-- No tap is inside an input of height or width 0. -/
theorem State.not_tapInBounds_of_empty (s : State) (h : u32 (s.get .inDim1) = 0 ∨ u32 (s.get .inDim2) = 0) (y x : Int) :
    ¬s.tapInBounds y x = true := by
  rw [s.tapInBounds_iff]
  omega

/-! ### Taps that give nothing -/

theorem State.convTap_of_not_inBounds (s : State) (usgn : Bool) (b oy ox oc fy fx : Nat)
    (h : ¬s.tapInBounds (s.tapY oy fy) (s.tapX ox fx) = true) : s.convTap usgn b oy ox oc fy fx = 0 := if_neg h

theorem State.dwTap_of_not_inBounds (s : State) (usgn : Bool) (b oy ox oc fy fx : Nat)
    (h : ¬s.tapInBounds (s.tapY oy fy) (s.tapX ox fx) = true) : s.dwTap usgn b oy ox oc fy fx = 0 := if_neg h

/-- A filter position whose elements are all 0 gives nothing; so does one with no channel. -/
theorem State.convTap_of_filter_zero (s : State) (usgn : Bool) (b oy ox oc fy fx : Nat)
    (h : ∀ ic, ic < u32 (s.get .inDim3) → s.filtElemConv usgn oc fy fx ic = 0) : s.convTap usgn b oy ox oc fy fx = 0 := by
  unfold State.convTap
  split
  · exact sumBelow_eq_zero _ _ fun ic hic => by rw [h ic hic, zero_mul]
  · rfl

/-- When no filter position gives anything, the seed is all there is. -/
theorem State.wrap32_seed_add_sumBelow (s : State) (hasBias : Bool) (oc m n : Nat) (f : Nat → Nat → Int)
    (h : ∀ fy, fy < m → ∀ fx, fx < n → f fy fx = 0) :
    wrap32 (s.seed hasBias oc + sumBelow m fun fy => sumBelow n fun fx => f fy fx) = s.seed hasBias oc := by
  rw [sumBelow_eq_zero m _ fun fy hfy => sumBelow_eq_zero n _ (h fy hfy), add_zero, s.wrap32_seed]

theorem State.convAcc_eq_seed (s : State) (hasBias usgn : Bool) (b oy ox oc : Nat)
    (h : ∀ fy, fy < u32 (s.get .filtDim1) → ∀ fx, fx < u32 (s.get .filtDim2) → s.convTap usgn b oy ox oc fy fx = 0) :
    s.convAcc hasBias usgn b oy ox oc = s.seed hasBias oc :=
  s.wrap32_seed_add_sumBelow hasBias oc _ _ _ h

theorem State.dwAcc_eq_seed (s : State) (hasBias usgn : Bool) (b oy ox oc : Nat)
    (h : ∀ fy, fy < u32 (s.get .filtDim1) → ∀ fx, fx < u32 (s.get .filtDim2) → s.dwTap usgn b oy ox oc fy fx = 0) :
    s.dwAcc hasBias usgn b oy ox oc = s.seed hasBias oc :=
  s.wrap32_seed_add_sumBelow hasBias oc _ _ _ h

/-- Settles O28: a zero filter dimension leaves no filter position, a zero input height or width no tap in bounds, a zero
channel count no term. -/
theorem emptyTapSetLeavesSeed : Obligations.EmptyTapSetLeavesSeed := by
  intro s hasBias usgn b oy ox oc
  refine ⟨fun h => s.convAcc_eq_seed hasBias usgn b oy ox oc fun fy hfy fx hfx => ?_,
    fun h => s.dwAcc_eq_seed hasBias usgn b oy ox oc fun fy hfy fx hfx => ?_⟩
  · rcases h with h | h | h | h | h
    · omega
    · omega
    · exact s.convTap_of_not_inBounds usgn b oy ox oc fy fx (s.not_tapInBounds_of_empty (.inl h) _ _)
    · exact s.convTap_of_not_inBounds usgn b oy ox oc fy fx (s.not_tapInBounds_of_empty (.inr h) _ _)
    · exact s.convTap_of_filter_zero usgn b oy ox oc fy fx fun ic hic => by omega
  · rcases h with h | h | h
    · omega
    · omega
    · exact s.dwTap_of_not_inBounds usgn b oy ox oc fy fx (s.not_tapInBounds_of_empty h _ _)

/-! ### `AccSafe` -/

theorem State.abs_convSum_le (s : State) (hasBias usgn : Bool) (b oy ox oc : Nat) :
    |s.convSum hasBias usgn b oy ox oc| ≤ s.convMagnitude hasBias usgn b oy ox oc := by
  refine abs_add_sumBelow_le _ _ _ _ _ fun fy _ fx _ => ?_
  unfold State.convTap
  split
  · exact abs_sumBelow_le _ _ _ fun ic _ => le_rfl
  · exact abs_zero.le

theorem State.abs_dwSum_le (s : State) (hasBias usgn : Bool) (b oy ox oc : Nat) :
    |s.dwSum hasBias usgn b oy ox oc| ≤ s.dwMagnitude hasBias usgn b oy ox oc := by
  refine abs_add_sumBelow_le _ _ _ _ _ fun fy _ fx _ => ?_
  unfold State.dwTap
  split
  · exact le_rfl
  · exact abs_zero.le

/-- The bound of R118 that needs no data: `IC` terms of at most 128 * 384 for each filter position. -/
theorem State.convMagnitude_le (s : State) (hasBias : Bool) (b oy ox oc : Nat) (hlo : -256 ≤ s32 (s.get .inOffset))
    (hhi : s32 (s.get .inOffset) ≤ 255) :
    s.convMagnitude hasBias false b oy ox oc ≤ |s.seed hasBias oc| +
      u32 (s.get .filtDim1) * (u32 (s.get .filtDim2) * (u32 (s.get .inDim3) * 49152)) := by
  refine add_le_add_right (sumBelow_le _ _ _ fun fy _ => sumBelow_le _ _ _ fun fx _ => ?_) _
  split
  · exact sumBelow_le _ _ _ fun ic _ => abs_signed_term_le _ _ _ hlo hhi
  · positivity

/-- The same for DWCONV, with one term for each filter position. -/
theorem State.dwMagnitude_le (s : State) (hasBias : Bool) (b oy ox oc : Nat) (hlo : -256 ≤ s32 (s.get .inOffset))
    (hhi : s32 (s.get .inOffset) ≤ 255) :
    s.dwMagnitude hasBias false b oy ox oc ≤ |s.seed hasBias oc| +
      u32 (s.get .filtDim1) * (u32 (s.get .filtDim2) * 49152) := by
  refine add_le_add_right (sumBelow_le _ _ _ fun fy _ => sumBelow_le _ _ _ fun fx _ => ?_) _
  split
  · exact abs_signed_term_le _ _ _ hlo hhi
  · norm_num

/-- Settles O29: the sum is at most the sum of magnitudes, so inside `AccSafe` it fits 32 bits; and the magnitudes are at most
the bounds of R118. -/
theorem accSafeGivesExactSum : Obligations.AccSafeGivesExactSum := by
  intro s hasBias usgn b oy ox oc
  refine ⟨fun h => wrap32_of_abs_le _ ((s.abs_convSum_le hasBias usgn b oy ox oc).trans h), ?_,
    fun h => wrap32_of_abs_le _ ((s.abs_dwSum_le hasBias usgn b oy ox oc).trans h), ?_⟩
  · rintro rfl hlo hhi hbound
    refine (s.convMagnitude_le hasBias b oy ox oc hlo hhi).trans (le_trans (le_of_eq ?_) hbound)
    push_cast
    ring
  · rintro rfl hlo hhi hbound
    refine (s.dwMagnitude_le hasBias b oy ox oc hlo hhi).trans (le_trans (le_of_eq ?_) hbound)
    push_cast
    ring

end Sys2Proof.Machine
end

section
/-! The output bytes of CONV and DWCONV (spec/41_conv.md R114 to R126, spec/42_dwconv.md R147). -/

namespace Sys2Proof.Machine

/-! ### Every output of CONV -/

/-- The exact sum of R117, over the taps in bounds and the input channels. -/
theorem State.convSum_eq_sum (s : State) (hasBias usgn : Bool) (b oy ox oc : Nat) :
    s.convSum hasBias usgn b oy ox oc = s.seed hasBias oc +
      ∑ fy ∈ Finset.range (u32 (s.get .filtDim1)), ∑ fx ∈ Finset.range (u32 (s.get .filtDim2)),
        if 0 ≤ s.tapY oy fy ∧ s.tapY oy fy < u32 (s.get .inDim1) ∧ 0 ≤ s.tapX ox fx ∧ s.tapX ox fx < u32 (s.get .inDim2) then
          ∑ ic ∈ Finset.range (u32 (s.get .inDim3)),
            s.filtElemConv usgn oc fy fx ic *
              (s.inElem usgn b (s.tapY oy fy).toNat (s.tapX ox fx).toNat ic + s32 (s.get .inOffset))
        else 0 := by
  simp only [State.convSum, State.convTap, sumBelow_eq_sum, s.tapInBounds_iff]
  rfl

/-- Settles O21: the byte stored at an output index is the rules' byte of its coordinates, over the sum of R117. -/
theorem convComputesEveryOutput : Obligations.ConvComputesEveryOutput := by
  intro s hasBias usgn h
  obtain ⟨t, ht, hst, hout⟩ := exec_outputs_of_ready s (.conv hasBias usgn) (by simp) h
  refine ⟨t, ht, hst, fun b oy ox oc ho => ?_⟩
  intro inY inX sum acc k scaled
  have hk : k < s.outDims.flatSize := s.outDims.index_lt b oy ox oc ho.1 ho.2.1 ho.2.2.1 ho.2.2.2
  have hacc : s.convAcc hasBias usgn b oy ox oc = acc := congrArg wrap32 (s.convSum_eq_sum hasBias usgn b oy ox oc)
  calc t.mem.read (u32 (s.get .outBase) + k) = s.convByte hasBias usgn k := hout k hk
    _ = low8 (s.clamped (s.convAcc hasBias usgn b oy ox oc) oc k) := s.elemByte_index _ b oy ox oc ho
    _ = low8 (s.clamped acc oc k) := by rw [hacc]

/-! ### The clamp -/

/-- With the bounds in the wrong order the clamp gives the lower one: it takes the upper bound first (R125). -/
theorem clamp_of_lt (lo hi t : Int) (h : hi < lo) : clamp lo hi t = lo := max_eq_left ((min_le_right t hi).trans h.le)

theorem clamp_bounds (lo hi t : Int) (h : lo ≤ hi) : lo ≤ clamp lo hi t ∧ clamp lo hi t ≤ hi :=
  ⟨le_max_left lo _, max_le h (min_le_right t hi)⟩

/-- Settles O24: every stored byte is cut from a clamped value, whatever the accumulator. -/
theorem reversedBoundsPinToMin : Obligations.ReversedBoundsPinToMin := by
  refine ⟨fun lo hi t h => ⟨clamp_of_lt lo hi t h, min_eq_left (h.le.trans (le_max_left lo t))⟩, fun s i hi h hb => ?_⟩
  obtain ⟨t, ht, hst, hout⟩ := exec_outputs_of_ready s i hi h
  refine ⟨t, ht, hst, fun k hk => ?_⟩
  obtain ⟨acc, oc, hbyte⟩ := s.ruleByte_eq_low8_clamped i hi k
  rw [hout k hk, hbyte, State.clamped, clamp_of_lt _ _ _ hb]

/-- Settles O25: a clamped value lies between the bounds, so in the range of the type, and its byte read back is the value. -/
theorem outputsLieWithinBounds : Obligations.OutputsLieWithinBounds := by
  intro s t i usgn hi h ht hb hmin hmax k hk
  obtain ⟨t', ht', -, hout⟩ := exec_outputs_of_ready s i hi h
  obtain rfl : t = t' := Host.Outcome.next.inj (ht.symm.trans ht')
  obtain ⟨acc, oc, hbyte⟩ := s.ruleByte_eq_low8_clamped i hi k
  have hv : s32 (s.get .actMin) ≤ s.clamped acc oc k ∧ s.clamped acc oc k ≤ s32 (s.get .actMax) := clamp_bounds _ _ _ hb
  rwa [hout k hk, hbyte, ext_low8 usgn _ (hmin.trans hv.1) (hv.2.trans hmax)]

/-! ### A filter of zeros -/

/-- A zero accumulator with a valid pair is in `Dom` and rescales to 0. -/
theorem deliver_zero (m s : Int) (k : Nat) (h : validPair m s = true) : deliver 0 m s k = 0 := by
  have hdom : inDom 0 m s = true := (inDom_iff 0 m s).2 ⟨by decide, h, by rw [qMul_zero]; decide⟩
  rw [deliver_of_inDom 0 m s k hdom, qMul_zero]

/-- Settles O26: every accumulator is the seed, which is 0, so only the offset and the clamp are left. -/
theorem zeroFilterGivesOffset : Obligations.ZeroFilterGivesOffset := by
  intro s hasBias usgn h hfilt hseed
  obtain ⟨t, ht, -, hout⟩ := exec_outputs_of_ready s (.conv hasBias usgn) (by simp) h
  refine ⟨t, ht, fun k hk => ?_⟩
  rcases hc : s.outDims.coords k with ⟨b, oy, ox, oc⟩
  obtain ⟨-, -, -, hoc⟩ := s.isOutput_coords k hk b oy ox oc hc
  obtain ⟨hzero, hpair⟩ := hseed oc hoc
  have hacc : s.convAcc hasBias usgn b oy ox oc = 0 :=
    (s.convAcc_eq_seed hasBias usgn b oy ox oc fun fy hfy fx hfx =>
      s.convTap_of_filter_zero usgn b oy ox oc fy fx fun ic hic => hfilt oc fy fx ic hoc hfy hfx hic).trans hzero
  calc t.mem.read (u32 (s.get .outBase) + k) = s.convByte hasBias usgn k := hout k hk
    _ = low8 (s.clamped 0 oc k) := by simp only [State.convByte, State.elemByte, hc, hacc]
    _ = _ := by rw [State.clamped, deliver_zero _ _ _ hpair, zero_add, clamp]

/-! ### An output of size 0 -/

theorem Dims.flatSize_eq_zero_iff (d : Dims) : d.flatSize = 0 ↔ d.d0 = 0 ∨ d.d1 = 0 ∨ d.d2 = 0 ∨ d.d3 = 0 := by
  simp only [Dims.flatSize, Nat.mul_eq_zero, or_assoc]

/-- Settles O27: the command completes, and its walk over an output of size 0 stores nothing. -/
theorem zeroSizeOutputWritesNothing : Obligations.ZeroSizeOutputWritesNothing := by
  intro s i hi hv hm hz
  obtain ⟨f, hf⟩ := exec_of_mapped s i hi hv hm
  refine ⟨_, hf, s.completed_status _ _, ?_⟩
  change s.mem.storeRange (s.outAddr 0) s.outDims.flatSize f = s.mem
  rw [s.outDims.flatSize_eq_zero_iff.2 hz, Memory.storeRange]

end Sys2Proof.Machine
end

section
/-! Validation of DWCONV and its output bytes (spec/42_dwconv.md R141 to R146). -/

namespace Sys2Proof.Machine

/-! ### Validation -/

/-- The checks W1 to W5. -/
theorem State.dwShapesOk_iff (s : State) (hasBias : Bool) :
    s.dwShapesOk hasBias = true ↔
      s.ranksOk hasBias = true ∧ u32 (s.get .inDim0) = u32 (s.get .outDim0) ∧
      u32 (s.get .outDim3) = u32 (s.get .inDim3) * u32 (s.get .depthMult) ∧
      u32 (s.get .filtDim3) = u32 (s.get .outDim3) ∧ s.biasOk hasBias = true := by
  simp only [State.dwShapesOk, Bool.and_eq_true, decide_eq_true_eq, and_assoc]
  rfl

/-- Settles O18: DWCONV is rejected exactly when `dwShapesOk` fails, and a validated command ends with `DONE`. -/
theorem dwconvShapeChecks : Obligations.DwconvShapeChecks := by
  intro s hasBias usgn w1 w2 w3 w4 w5
  have hchecks : s.dwShapesOk hasBias = true ↔ w1 ∧ w2 ∧ w3 ∧ w4 ∧ w5 := by
    rw [s.dwShapesOk_iff, s.ranksOk_iff, s.biasOk_iff]
  exact ⟨fun h => if_neg (mt hchecks.1 h), fun h t => exec_status_of_shapesOk (.dwconv hasBias usgn) s t (hchecks.2 h)⟩

/-! ### Every output -/

/-- The exact sum of R144, over the taps in bounds. -/
theorem State.dwSum_eq_sum (s : State) (hasBias usgn : Bool) (b oy ox oc : Nat) :
    s.dwSum hasBias usgn b oy ox oc = s.seed hasBias oc +
      ∑ fy ∈ Finset.range (u32 (s.get .filtDim1)), ∑ fx ∈ Finset.range (u32 (s.get .filtDim2)),
        if 0 ≤ s.tapY oy fy ∧ s.tapY oy fy < u32 (s.get .inDim1) ∧ 0 ≤ s.tapX ox fx ∧ s.tapX ox fx < u32 (s.get .inDim2) then
          s.filtElemDw usgn fy fx oc *
            (s.inElem usgn b (s.tapY oy fy).toNat (s.tapX ox fx).toNat (s.dwChannel oc) + s32 (s.get .inOffset))
        else 0 := by
  simp only [State.dwSum, State.dwTap, sumBelow_eq_sum, s.tapInBounds_iff]
  rfl

/-- Settles O22: the byte stored at an output index is the rules' byte of its coordinates, over the sum of R144. -/
theorem dwconvComputesEveryOutput : Obligations.DwconvComputesEveryOutput := by
  intro s hasBias usgn h
  obtain ⟨t, ht, hst, hout⟩ := exec_outputs_of_ready s (.dwconv hasBias usgn) (by simp) h
  refine ⟨t, ht, hst, fun b oy ox oc ho => ?_⟩
  intro inY inX ic sum acc k scaled
  obtain ⟨hb, hoy, hox, hoc⟩ := ho
  have hk : k < s.outDims.flatSize := s.outDims.index_lt b oy ox oc hb hoy hox hoc
  have hacc : s.dwAcc hasBias usgn b oy ox oc = acc := congrArg wrap32 (s.dwSum_eq_sum hasBias usgn b oy ox oc)
  refine ⟨s.dwChannel_lt hasBias (s.shapesOk_of_ready (.dwconv hasBias usgn) h) oc hoc, ?_⟩
  calc t.mem.read (u32 (s.get .outBase) + k) = s.dwByte hasBias usgn k := hout k hk
    _ = low8 (s.clamped (s.dwAcc hasBias usgn b oy ox oc) oc k) := s.elemByte_index _ b oy ox oc ⟨hb, hoy, hox, hoc⟩
    _ = low8 (s.clamped acc oc k) := by rw [hacc]

end Sys2Proof.Machine
end

section
/-! DWCONV with depth multiplier 1 against CONV with the diagonal filter (spec/42_dwconv.md R148). -/

namespace Sys2Proof.Machine

/-- Two states that share everything a tensor command reads but the filter and the depth multiplier. -/
structure State.AgreeButFilter (s d : State) : Prop where
  mem : d.mem = s.mem
  fresh : d.fresh = s.fresh
  get : ∀ r, r ≠ .filtDim0 → r ≠ .filtDim3 → r ≠ .filtBase → r ≠ .depthMult → r ≠ .cmd → r ≠ .status → d.get r = s.get r

section
variable {s d : State} (h : s.AgreeButFilter d)
include h

theorem State.AgreeButFilter.inDims : d.inDims = s.inDims := by
  simp (disch := decide) only [State.inDims, h.get]

theorem State.AgreeButFilter.outDims : d.outDims = s.outDims := by
  simp (disch := decide) only [State.outDims, h.get]

theorem State.AgreeButFilter.tapY (oy fy : Nat) : d.tapY oy fy = s.tapY oy fy := by
  simp (disch := decide) only [State.tapY, h.get]

theorem State.AgreeButFilter.tapX (ox fx : Nat) : d.tapX ox fx = s.tapX ox fx := by
  simp (disch := decide) only [State.tapX, h.get]

theorem State.AgreeButFilter.tapInBounds (y x : Int) : d.tapInBounds y x = s.tapInBounds y x := by
  simp only [State.tapInBounds, h.inDims]

theorem State.AgreeButFilter.inElem (usgn : Bool) (b y x c : Nat) : d.inElem usgn b y x c = s.inElem usgn b y x c := by
  simp (disch := decide) only [State.inElem, State.inAddr, h.inDims, h.mem, h.get]

theorem State.AgreeButFilter.seed (hasBias : Bool) (oc : Nat) : d.seed hasBias oc = s.seed hasBias oc := by
  simp (disch := decide) only [State.seed, State.biasElem, h.mem, h.get]

theorem State.AgreeButFilter.clamped (acc : Int) (oc k : Nat) : d.clamped acc oc k = s.clamped acc oc k := by
  simp (disch := decide) only [State.clamped, State.multElem, State.shiftElem, h.mem, h.fresh, h.get]

end

/-- The CONV filter of `s` is the diagonal embedding of the DWCONV filter of `d` (R148). -/
def State.DiagonalFilter (s d : State) (usgn : Bool) : Prop :=
  ∀ oc fy fx ic, oc < u32 (s.get .outDim3) → fy < u32 (s.get .filtDim1) → fx < u32 (s.get .filtDim2) →
    ic < u32 (s.get .inDim3) →
    s.filtElemConv usgn oc fy fx ic = if ic = oc then d.filtElemDw usgn fy fx oc else 0

/-- A sum of products whose left factors are 0 but at `j` is its term at `j`. -/
theorem sumBelow_single_mul (n j : Nat) (f g : Nat → Int) (c : Int) (hj : j < n)
    (hf : ∀ i, i < n → f i = if i = j then c else 0) : (sumBelow n fun i => f i * g i) = c * g j := by
  have hterm : ∀ i, i < n → f i * g i = if i = j then c * g i else 0 := fun i hi => by rw [hf i hi, ite_mul, zero_mul]
  rw [sumBelow_congr n _ _ hterm, sumBelow_eq_sum, Finset.sum_ite_eq', if_pos (Finset.mem_range.2 hj)]

/-- With depth multiplier 1 the input channel is the output channel (R141). -/
theorem State.dwChannel_of_depthMult_one (d : State) (hdm : u32 (d.get .depthMult) = 1) (oc : Nat) : d.dwChannel oc = oc := by
  have hdm' : d.depthMult = 1 := hdm
  rw [State.dwChannel, hdm', Nat.div_one]

section
variable {s d : State} {usgn : Bool} (h : s.AgreeButFilter d) (hdm : u32 (d.get .depthMult) = 1)
  (hic : u32 (s.get .outDim3) = u32 (s.get .inDim3)) (hdiag : s.DiagonalFilter d usgn)
include h hdm hic hdiag

/-- At a filter position the diagonal filter leaves, of all input channels, the one of the output channel. -/
theorem State.convTap_eq_dwTap_of_diagonal (b oy ox oc fy fx : Nat) (hoc : oc < u32 (s.get .outDim3))
    (hfy : fy < u32 (s.get .filtDim1)) (hfx : fx < u32 (s.get .filtDim2)) :
    s.convTap usgn b oy ox oc fy fx = d.dwTap usgn b oy ox oc fy fx := by
  have hoff : d.get .inOffset = s.get .inOffset := by simp (disch := decide) only [h.get]
  simp only [State.convTap, State.dwTap, h.tapY, h.tapX, h.tapInBounds, h.inElem, hoff, d.dwChannel_of_depthMult_one hdm]
  split
  · exact sumBelow_single_mul _ oc _ _ _ (hoc.trans_eq hic) fun ic => hdiag oc fy fx ic hoc hfy hfx
  · rfl

theorem State.convAcc_eq_dwAcc_of_diagonal (hasBias : Bool) (b oy ox oc : Nat) (hoc : oc < u32 (s.get .outDim3)) :
    s.convAcc hasBias usgn b oy ox oc = d.dwAcc hasBias usgn b oy ox oc := by
  have hfh : d.filtDims.d1 = s.filtDims.d1 := by simp (disch := decide) only [State.filtDims, h.get]
  have hfw : d.filtDims.d2 = s.filtDims.d2 := by simp (disch := decide) only [State.filtDims, h.get]
  have htaps : (sumBelow s.filtDims.d1 fun fy => sumBelow s.filtDims.d2 fun fx => s.convTap usgn b oy ox oc fy fx) =
      sumBelow s.filtDims.d1 fun fy => sumBelow s.filtDims.d2 fun fx => d.dwTap usgn b oy ox oc fy fx :=
    sumBelow_congr _ _ _ fun fy hfy => sumBelow_congr _ _ _ fun fx hfx =>
      State.convTap_eq_dwTap_of_diagonal h hdm hic hdiag b oy ox oc fy fx hoc hfy hfx
  simp only [State.convAcc, State.convSum, State.dwAcc, State.dwSum, h.seed, hfh, hfw, htaps]

theorem State.convByte_eq_dwByte_of_diagonal (hasBias : Bool) (k : Nat) (hk : k < s.outDims.flatSize) :
    s.convByte hasBias usgn k = d.dwByte hasBias usgn k := by
  obtain ⟨-, -, -, hoc⟩ := s.outDims.coords_lt k hk
  simp only [State.convByte, State.dwByte, State.elemByte, h.outDims, h.clamped]
  rw [State.convAcc_eq_dwAcc_of_diagonal h hdm hic hdiag hasBias _ _ _ _ hoc]

end

/-- Settles O30: both ready commands store the bytes the rules give, and these are equal element by element. -/
theorem diagonalConvEqualsDwconv : Obligations.DiagonalConvEqualsDwconv := by
  intro s d hasBias usgn hs hd hmem hfresh hget hdm hic hdiag
  have h : s.AgreeButFilter d := ⟨hmem, hfresh, hget⟩
  obtain ⟨t, ht, -, hout⟩ := exec_outputs_of_ready s (.conv hasBias usgn) (by simp) hs
  obtain ⟨e, he, -, hout'⟩ := exec_outputs_of_ready d (.dwconv hasBias usgn) (by simp) hd
  have hbase : d.get .outBase = s.get .outBase := by simp (disch := decide) only [hget]
  rw [hbase, h.outDims] at hout'
  refine ⟨t, e, ht, he, fun k hk => ?_⟩
  calc t.mem.read (u32 (s.get .outBase) + k) = s.convByte hasBias usgn k := hout k hk
    _ = d.dwByte hasBias usgn k := State.convByte_eq_dwByte_of_diagonal h hdm hic hdiag hasBias k hk
    _ = e.mem.read (u32 (s.get .outBase) + k) := (hout' k hk).symm

end Sys2Proof.Machine
end

section
/-! Rejection and its end, completion, and the idle engine (spec/60_exceptions.md R163, R165, R169, R171, R179, R180;
spec/70_reset_and_hazards.md R201). -/

namespace Sys2Proof.Machine

/-- Settles O6: the engine's turn of the state with the turn taken off, which is idle as `s` is. -/
theorem idleEngineWaits : Obligations.IdleEngineWaits := by
  intro s hturn hb
  rw [step_engine s hturn, s.popTurn.engineTurn_of_idle hb]

/-! ### What a rejection leaves (R163) -/

/-- The fields of `STATUS` after a rejection. -/
theorem statusError_fields (e : ErrorCode) :
    statusBusyBit (statusError e) = false ∧ statusDoneBit (statusError e) = false ∧
    statusErrorBit (statusError e) = true ∧
    statusEcode (statusError e) = (match e with | .eShape => 1 | .eResource => 2 | .eCmd => 3) := by
  cases e <;> decide

theorem State.raise_get_status (s : State) (e : ErrorCode) : (s.raise e).get .status = statusError e :=
  s.raise_get e .status

theorem State.raise_busy (s : State) (e : ErrorCode) : (s.raise e).busy = false := by
  rw [State.busy, s.raise_get_status]
  exact (statusError_fields e).1

/-- An idle engine takes the host's write of any register at once. -/
theorem State.hostWrite_of_idle (s : State) (r : Reg) (v : Word) (hb : s.busy = false) :
    s.hostWrite 32 (s.qceBase + r.offset) v = .next (s.writeOffset r.offset v) := by
  rw [s.hostWrite_base r.offset v r.offset_aligned, hb, if_neg Bool.false_ne_true]

/-- Settles O8: the engine is idle after a rejection, so a write of `CMD` launches and any other register the host may write
is stored. -/
theorem rejectionChangesStatusOnly : Obligations.RejectionChangesStatusOnly := by
  intro s e
  obtain ⟨hbusy, hdone, herror, hecode⟩ := statusError_fields e
  have hwrite := fun r v => (s.raise e).hostWrite_of_idle r v (s.raise_busy e)
  rw [s.raise_get_status]
  refine ⟨rfl, hbusy, hdone, herror, hecode, fun r hr => (s.raise_get e r).trans (if_neg hr), rfl, s.raise_busy e,
    fun w => ⟨(s.raise e).launch w, ?_, (s.raise e).launch_get w .cmd, (s.raise e).launch_busy w⟩,
    fun r v _ hro => ⟨_, hwrite r v, ((s.raise e).writeOffset_writable r v hro).1⟩⟩
  exact (hwrite .cmd w).trans (congrArg _ ((s.raise e).writeOffset_offset .cmd w))

/-! ### Illegal words (R165) -/

/-- R165's four causes leave no legal word. -/
theorem not_legalWord_of_cause (w : Word)
    (h : fieldOpc w = 0 ∨ 4 ≤ fieldOpc w ∨ fieldZero w ≠ 0 ∨ (fieldOpc w = 3 ∧ w.extractLsb' 4 2 ≠ 0)) :
    legalWord w = false := by
  refine Bool.eq_false_iff.2 fun hl => ?_
  obtain ⟨hz, h1 | h2 | ⟨h3, ho⟩⟩ := (legalWord_iff_fields w).1 hl
  · simp [hz, h1] at h
  · simp [hz, h2] at h
  · simp [hz, h3, ho] at h

/-- Settles O9: each of the causes makes the word illegal, and the step on an illegal word is `raise E_CMD`. -/
theorem illegalWordRaisesECmd : Obligations.IllegalWordRaisesECmd := by
  intro s hturn hb hcause
  obtain ⟨why, hd⟩ := decode_of_not_legal _ (not_legalWord_of_cause (s.get .cmd) hcause)
  exact step_of_illegal s why hturn hb hd

/-! ### A rejected command launched again (R169) -/

/-- A command that fails its shape checks is rejected. -/
theorem exec_of_rejected (s : State) (i : Instr) (h : s.shapesOk i = false) : exec i s = .next (s.raise .eShape) := by
  cases i with
  | conv hasBias usgn => exact if_neg (Bool.eq_false_iff.1 h)
  | dwconv hasBias usgn => exact if_neg (Bool.eq_false_iff.1 h)
  | qmul => cases h

/-- A turn of the running engine that ends with `ERROR` met an illegal word or failed shape checks. -/
theorem State.engineTurn_error (s t : State) (hb : s.busy = true) (h : s.engineTurn = .next t)
    (he : statusErrorBit (t.get .status) = true) :
    ((∃ why, decode (s.get .cmd) = .illegal why) ∧ t = s.raise .eCmd) ∨
    (∃ i, decode (s.get .cmd) = .instr i ∧ s.shapesOk i = false ∧ t = s.raise .eShape) := by
  rcases s.engineTurn_next t h with ⟨hidle, -⟩ | ⟨-, hd, rfl⟩ | ⟨-, i, hd, hexec⟩
  · rw [hb] at hidle; cases hidle
  · exact .inl ⟨hd, rfl⟩
  · cases hv : s.shapesOk i with
    | false =>
      rw [exec_of_rejected s i hv] at hexec
      cases hexec
      exact .inr ⟨i, hd, hv, rfl⟩
    | true =>
      rw [exec_status_of_shapesOk i s t hv hexec] at he
      cases he

/-- The shape checks read neither `STATUS` nor `CMD`. -/
theorem State.shapesOk_launch_raise (s : State) (e : ErrorCode) (w : Word) (i : Instr) :
    ((s.raise e).launch w).shapesOk i = s.shapesOk i := by
  cases i <;> rfl

/-- Settles O10: the launch puts the same word in `CMD` and leaves what the checks read, so the same check fails again. -/
theorem relaunchIsRejectedAgain : Obligations.RelaunchIsRejectedAgain := by
  intro s t hb h he
  have hcmd : t.get .cmd = s.get .cmd := s.engineTurn_get t h .cmd (by decide) (by decide)
  have hlatched : (t.launch (t.get .cmd)).get .cmd = s.get .cmd := (t.launch_get _ .cmd).trans hcmd
  have hbusy := t.launch_busy (t.get .cmd)
  rcases s.engineTurn_error t hb h he with ⟨⟨why, hd⟩, rfl⟩ | ⟨i, hd, hv, rfl⟩
  · exact ⟨_, State.engineTurn_of_illegal _ why hbusy (hlatched ▸ hd),
      (State.raise_get_status _ _).trans (s.raise_get_status .eCmd).symm⟩
  · refine ⟨_, (State.engineTurn_of_running _ i hbusy (hlatched ▸ hd)).trans (exec_of_rejected _ i ?_),
      (State.raise_get_status _ _).trans (s.raise_get_status .eShape).symm⟩
    rw [s.shapesOk_launch_raise, hv]

/-! ### Completion (R171) -/

/-- A validated command whose buffers are mapped answers a next state. -/
theorem exec_next_of_mapped (s : State) (i : Instr) (hv : s.shapesOk i = true) (hm : s.BuffersMapped i) :
    ∃ t, exec i s = .next t := by
  rcases eq_or_ne i .qmul with rfl | hi
  · exact ⟨_, exec_qmul s⟩
  · obtain ⟨f, hf⟩ := exec_of_mapped s i hi hv hm
    exact ⟨_, hf⟩

/-- Settles O19: the command answers a next state, and after its shape checks it can only end with `DONE`. -/
theorem validatedCommandsComplete : Obligations.ValidatedCommandsComplete := by
  intro s i hv hm
  obtain ⟨t, ht⟩ := exec_next_of_mapped s i hv hm
  exact ⟨t, ht, exec_status_of_shapesOk i s t hv ht⟩

end Sys2Proof.Machine
end

section
/-! Reset at any time, and how a running command ends (spec/70_reset_and_hazards.md R190, R191, R201). -/

namespace Sys2Proof.Machine

/-! ### The end of a running command (R201) -/

/-- The turn of the running engine completes the command or rejects it, for its shapes or for its word. -/
theorem State.engineTurn_completes_or_rejects (s t : State) (hb : s.busy = true) (h : s.engineTurn = .next t) :
    t.get .status = statusDone ∨ t = s.raise .eShape ∨ t = s.raise .eCmd := by
  rcases s.engineTurn_next t h with ⟨hidle, -⟩ | ⟨-, -, rfl⟩ | ⟨-, i, -, hexec⟩
  · rw [hb] at hidle; cases hidle
  · exact .inr (.inr rfl)
  · cases hv : s.shapesOk i with
    | false =>
      rw [exec_of_rejected s i hv] at hexec
      cases hexec
      exact .inr (.inl rfl)
    | true => exact .inl (exec_status_of_shapesOk i s t hv hexec)

/-- `STATUS` after normal completion means an idle engine. -/
theorem State.busy_of_status_done (s : State) (h : s.get .status = statusDone) : s.busy = false := by
  rw [State.busy, h]
  decide

/-- Settles O48: a completion leaves `DONE`, a rejection its code and everything but `STATUS`. -/
theorem engineTurnEndsCommand : Obligations.EngineTurnEndsCommand := by
  intro s t hb hturn h
  rw [step_engine s hturn] at h
  have hframe : ∀ e : ErrorCode, (∀ a, (s.popTurn.raise e).mem.read a = s.mem.read a) ∧
      ∀ r, r ≠ .status → (s.popTurn.raise e).get r = s.get r :=
    fun e => ⟨fun _ => rfl, fun r hr => (s.popTurn.raise_get e r).trans (if_neg hr)⟩
  rcases s.popTurn.engineTurn_completes_or_rejects t hb h with hdone | rfl | rfl
  · exact ⟨t.busy_of_status_done hdone, .inl hdone, fun hne => absurd hdone hne⟩
  · exact ⟨s.popTurn.raise_busy .eShape, .inr (.inl (s.popTurn.raise_get_status .eShape)), fun _ => hframe .eShape⟩
  · exact ⟨s.popTurn.raise_busy .eCmd, .inr (.inr (s.popTurn.raise_get_status .eCmd)), fun _ => hframe .eCmd⟩

/-! ### Reset (R190, R191) -/

/-- A step whose turn is the platform's reset. -/
theorem step_reset (s : State) (h : s.nextTurn = .reset) : step s = .next s.popTurn.applyReset := by
  rw [step, h]; rfl

/-- After reset, at any time, every register reads as in the reset state. -/
theorem State.applyReset_get (s : State) (r : Reg) : s.applyReset.get r = State.reset.get r := rfl

/-- Settles O42: a reset turn asks nothing of the state, so a running command is no exception. -/
theorem resetTurnRestoresWindow : Obligations.ResetTurnRestoresWindow := by
  intro s hturn
  exact ⟨s.popTurn.applyReset, step_reset s hturn, s.popTurn.applyReset_get, s.popTurn.applyReset_mem,
    s.popTurn.applyReset_busy⟩

end Sys2Proof.Machine
end
